-- ==== Sys2Proof/Word.lean ====
section
/-! DEFINITION. The bit-vector types of the block and the two readings of a 32-bit word (00_scope.md R9). -/

namespace Sys2Proof

/-- `Byte`, an 8-bit word (00_scope.md R9). -/
abbrev Byte := BitVec 8

/-- `Bits32`, a 32-bit word; `+` on it is addition modulo 2^32 (00_scope.md R9). -/
abbrev Bits32 := BitVec 32

/-- The event word `EV[3:0]` (30_encoding.md R70). -/
abbrev EventWord := BitVec 4

/-- `sint(x)`: the two's-complement integer of `x`, in `[-2^31, 2^31)` (00_scope.md R9). -/
def sint (x : Bits32) : Int := x.toInt

/-- `word(v)`: the `Bits32` whose value is `v mod 2^32` (00_scope.md R9). -/
def word (v : Int) : Bits32 := BitVec.ofInt 32 v

end Sys2Proof
end

