-- ==== Sys2Proof/Config.lean ====
section
/-! DEFINITION. The configuration parameters of 00_scope.md R6, under the spec's own names. They are fixed for a
session and are no state of the block; `State` carries the record because the host's interface gives the step no
second argument (log 1). Nothing here says which values are legal: that is R7, in Machine/Ops.lean. -/

namespace Sys2Proof

/-- How a payload byte enters the checksum sum (00_scope.md R6, `BYTE_SIGN`). -/
inductive ByteSign where
  | unsigned
  | signed
  deriving DecidableEq, Repr

/-- The parameters of 00_scope.md R6. `CNT_W` is fixed at 32 there, so it is the width of the counters' type. The
types admit illegal values wherever R7 has a clause against them, so that each clause can fail. -/
structure Config where
  /-- Window capacity, in packets. -/
  W : Nat
  /-- Sequence-space size, the modulus of sequence numbers. -/
  S : Nat
  /-- Round-trip-time base duration, in duration units. -/
  RTT : Nat
  /-- Payload byte-length of every packet and message. -/
  L : Nat
  /-- The acknum sentinel stamped on data packets, a 32-bit signed value. -/
  NOTINUSE : Bits32
  /-- The filler byte of acknowledgment payloads. -/
  ACK_FILL : Byte
  /-- How a payload byte enters the checksum sum. -/
  BYTE_SIGN : ByteSign
  /-- Reset value of the receiver's alternating counter; legal values 0 and 1. -/
  B_SEQ_RESET : Nat
  /-- Reset value of lastACK: `none` is the spec's `NONE`. -/
  LASTACK_RESET : Option Int
  /-- Whether the host may deliver an expiry while the timer is not armed. -/
  SPURIOUS_TIMEOUT : Bool
  deriving DecidableEq, Repr

/-- The reference instance of 00_scope.md R6. DESIGN CHOICE as the configuration of `State.reset`; `RTT`, which R6
leaves OPEN, is PRESUMED 16, the course framework's (92_eei_decisions.md D10; log 2). -/
def Config.reference : Config where
  W := 6
  S := 12
  RTT := 16
  L := 20
  NOTINUSE := 0xFFFFFFFF#32
  ACK_FILL := 0x30#8
  BYTE_SIGN := .unsigned
  B_SEQ_RESET := 1
  LASTACK_RESET := none
  SPURIOUS_TIMEOUT := true

end Sys2Proof
end

