-- ==== Sys2Proof/Syntax.lean ====
section
/-! DEFINITION. Packets, the events of the opcode map (one constructor of `Instr` per row of spec/opcode_table.json)
and the transaction in which the host presents an event (30_encoding.md R70, R72, R77). -/

namespace Sys2Proof

/-- A `Packet` has exactly these four fields (30_encoding.md R72; 00_scope.md R12). -/
structure Packet where
  seqnum : Bits32
  acknum : Bits32
  payload : List Byte
  checksum : Bits32
  deriving DecidableEq, Repr

/-- The operand shape of an event (30_encoding.md R70). -/
inductive Format where
  /-- `EV-N`: no operand. -/
  | none
  /-- `EV-P`: a payload operand `PAY`. -/
  | payload
  /-- `EV-K`: a packet operand `PKT`. -/
  | packet
  deriving DecidableEq, Repr

/-- The operations of the opcode map, in its order (30_encoding.md R77). -/
inductive Op where
  | aInit
  | aSend
  | aRx
  | aTimeout
  | ckCompute
  | ckVerify
  | bInit
  | bRx
  deriving DecidableEq, Repr

/-- The instructions: one event each, with its operand (30_encoding.md R77). -/
inductive Instr where
  /-- `A.INIT`. -/
  | aInit
  /-- `A.SEND PAY`. -/
  | aSend (pay : List Byte)
  /-- `A.RX PKT`. -/
  | aRx (pkt : Packet)
  /-- `A.TIMEOUT`. -/
  | aTimeout
  /-- `CK.COMPUTE PKT`. -/
  | ckCompute (pkt : Packet)
  /-- `CK.VERIFY PKT`. -/
  | ckVerify (pkt : Packet)
  /-- `B.INIT`. -/
  | bInit
  /-- `B.RX PKT`. -/
  | bRx (pkt : Packet)
  deriving DecidableEq, Repr

/-- The operation an instruction performs. -/
def Instr.op : Instr → Op
  | .aInit => .aInit
  | .aSend _ => .aSend
  | .aRx _ => .aRx
  | .aTimeout => .aTimeout
  | .ckCompute _ => .ckCompute
  | .ckVerify _ => .ckVerify
  | .bInit => .bInit
  | .bRx _ => .bRx

/-- One input transaction as the host presents it: an event word and the operand's bytes, byte 0 first, on the
reference bus (30_encoding.md R70, R73, R74). -/
structure Transaction where
  ev : EventWord
  operand : List Byte
  deriving DecidableEq, Repr

end Sys2Proof
end

