-- ==== Sys2Proof/Machine/State.lean ====
section
/-! DEFINITION. The state of the machine as plain data: the sender, the receiver, the fault record, the timer facility
(10_state.md), the rest of the reference host model (60_exceptions.md R173, R174; 10_state.md R31), and the response of
the last event (30_encoding.md R75). Also the reasons a step can stop. -/

namespace Sys2Proof.Machine

/-- Endpoint identifiers `EP_A`, `EP_B` (00_scope.md R8). -/
inductive Endpoint where
  | a
  | b
  deriving DecidableEq, Repr

/-- The tri-state tag of a window slot (10_state.md R23). -/
inductive SlotTag where
  | empty
  | inflight
  | acked
  deriving DecidableEq, Repr

/-- A slot `A.buf[i]` of the window buffer (10_state.md R22). -/
structure Slot where
  tag : SlotTag
  pkt : Packet
  deriving DecidableEq, Repr

/-- The packet whose fields are all zero. DESIGN CHOICE: what a slot's unspecified `pkt` is at power-on (10_state.md
R36; log 5). -/
def zeroPacket (L : Nat) : Packet := ⟨0#32, 0#32, List.replicate L 0#8, 0#32⟩

/-- The sender unit's state (10_state.md R21, R22, R26, R28). -/
structure Sender where
  /-- `A.init`. -/
  init : Bool
  /-- Cursor of the oldest unacknowledged slot. -/
  first : Nat
  /-- Cursor of the most recently inserted slot. -/
  last : Nat
  /-- Number of occupied slots. -/
  count : Nat
  /-- The next sequence number to assign. -/
  nextseq : Nat
  /-- lastACK holds a value. -/
  lastack_v : Bool
  /-- lastACK, the most recently accepted acknowledgment number. -/
  lastack : Nat
  /-- The trailing counter; non-zero only inside a slide (10_state.md R34). -/
  trail : Nat
  /-- The window buffer, slot 0 first. -/
  buf : List Slot
  /-- Sends rejected because the window is full. -/
  cnt_wfull : Bits32
  /-- Acknowledgments that failed the integrity check. -/
  cnt_ackcorrupt : Bits32
  /-- Acknowledgments discarded as duplicate-class. -/
  cnt_ackdup : Bits32
  deriving DecidableEq, Repr

/-- The receiver unit's state (10_state.md R27, R28). -/
structure Receiver where
  /-- `B.init`. -/
  init : Bool
  /-- The delivery record, the bit of sequence number 0 first. -/
  dlv : List Bool
  /-- The alternating counter stamped on acknowledgments. -/
  nseq : BitVec 1
  deriving DecidableEq, Repr

/-- `FAULT_INFO`: the event word and one 32-bit value of the first fault (10_state.md R29; 60_exceptions.md R163). -/
structure FaultInfo where
  ev : EventWord
  value : Bits32
  deriving DecidableEq, Repr

/-- The fault record (10_state.md R29). `info` is an Option because the spec says that FAULT_INFO holds no value before
the first fault. -/
structure FaultRecord where
  /-- `FAULT`. -/
  reg : BitVec 8
  /-- `FAULT_INFO`. -/
  info : Option FaultInfo
  deriving DecidableEq, Repr

/-- The timer facility of endpoint A (10_state.md R30). -/
structure Timer where
  armed : Bool
  dur : Nat
  deriving DecidableEq, Repr

/-- The fault causes of 60_exceptions.md R163. They are recorded in `FAULT`; the machine goes on (R164; log 14). -/
inductive FaultCause where
  /-- `FLT_ILLEGAL_EVENT`. -/
  | illegalEvent
  /-- `FLT_NOT_INIT`. -/
  | notInit
  /-- `FLT_REINIT`. -/
  | reinit
  /-- `FLT_CONFIG`. -/
  | config
  /-- `FLT_RX_SEQ_RANGE`. -/
  | rxSeqRange
  deriving DecidableEq, Repr

/-- Output actions (30_encoding.md R78; 00_scope.md R11). -/
inductive Action where
  /-- `deliver(ep, p)`: hand a packet to the channel. -/
  | tx (ep : Endpoint) (pkt : Packet)
  /-- `deliverPayload(ep, bytes)`: hand a payload to the application. -/
  | deliver (ep : Endpoint) (bytes : List Byte)
  /-- `startTimer(ep, d)`. -/
  | tstart (ep : Endpoint) (dur : Nat)
  /-- `stopTimer(ep)`. -/
  | tstop (ep : Endpoint)
  deriving DecidableEq, Repr

/-- Result codes (30_encoding.md R76), in the order of their values 0x0 to 0xE. -/
inductive ResultCode where
  | initDone
  | sendOk
  | sendFull
  | ackCorrupt
  | ackDup
  | ackStale
  | ackSack
  | ackSlide
  | toRetx
  | toIgnored
  | rxCorrupt
  | rxNew
  | rxDup
  | ckDone
  | faulted
  deriving DecidableEq, Repr

/-- The response of an event (30_encoding.md R75). -/
structure Response where
  res : ResultCode
  acc : Bool
  ckv : Bits32
  cor : Bool
  out : List Action
  deriving DecidableEq, Repr

/-- Why a step stops with a fault. Neither is a fault of the spec: those are recorded in `FAULT` (log 14). -/
inductive Fault where
  /-- Raised by A.SEND, A.RX and A.TIMEOUT when the window buffer has not the `W >= 1` slots, or a cursor is not one of
  their indices: an index outside `[0, W)` "never arises" (20_memory.md R51). Safe: no run reaches it (log 13). -/
  | windowIndex
  /-- Raised by B.RX when the delivery record has not the `S` bits of 20_memory.md R52. Safe: no run reaches it
  (log 13). -/
  | recordIndex
  deriving DecidableEq, Repr

/-- Why a step is refused. -/
inductive Refusal where
  /-- Raised by an arm of exec whose instruction has no meaning yet. Safe: the machine stops. -/
  | notModelled (mnemonic : String)
  /-- Raised by A.TIMEOUT presented while the timer is not armed and SPURIOUS_TIMEOUT is false: the host may not
  present it (60_exceptions.md R172; 93_implementation_defined.md part 2, "refuse: outside the model"). Safe (log 11). -/
  | expiryNotPresentable
  /-- Raised by step for a transaction whose operand has not its format's bytes: it "cannot be presented"
  (30_encoding.md R74). Safe (log 8). -/
  | operandNotPresentable (ev : EventWord)
  deriving DecidableEq, Repr

/-- The state of the machine. INVENTORY.md lists every field with the rule that names it. -/
structure State where
  /-- The configuration of the session; no step writes it (10_state.md R33; log 1). -/
  cfg : Config
  /-- The sender unit. -/
  a : Sender
  /-- The receiver unit. -/
  b : Receiver
  /-- The block-wide fault record. -/
  fault : FaultRecord
  /-- The timer facility, host state. -/
  timer : Timer
  /-- The channel's A-to-B collection, in order of transmission (60_exceptions.md R173). -/
  chanAB : List Packet
  /-- The channel's B-to-A collection, in order of transmission (60_exceptions.md R173). -/
  chanBA : List Packet
  /-- The payloads delivered to the application at B, in order of delivery (60_exceptions.md R174; log 12). -/
  delivered : List (List Byte)
  /-- The events the host presents, next one first (10_state.md R31; log 6). -/
  inbox : List Transaction
  /-- The response of the last event; none before the first (30_encoding.md R75; log 9). -/
  resp : Option Response
  deriving DecidableEq, Repr

/-- What a meaning answers. -/
abbrev Answer := Host.Outcome State Fault Refusal

/-- The sender before A.INIT. `A.init` is 0 (10_state.md R28); every other register "holds no value" and stands at the
reset value of R21, R22 and R26 (DESIGN CHOICE, log 4; the slots' packets, log 5). -/
def Sender.powerOn (c : Config) : Sender where
  init := false
  first := 0
  last := c.W - 1
  count := 0
  nextseq := 0
  lastack_v := c.LASTACK_RESET.isSome
  lastack := (c.LASTACK_RESET.getD 0).toNat
  trail := 0
  buf := List.replicate c.W ⟨.empty, zeroPacket c.L⟩
  cnt_wfull := 0#32
  cnt_ackcorrupt := 0#32
  cnt_ackdup := 0#32

/-- The receiver before B.INIT (10_state.md R27, R28; log 4). -/
def Receiver.powerOn (c : Config) : Receiver where
  init := false
  dlv := List.replicate c.S false
  nseq := BitVec.ofNat 1 c.B_SEQ_RESET

/-- The first state of a run under a configuration (70_reset_and_hazards.md R193; 10_state.md R28 to R30; 60_exceptions.md
R179): nothing initialised, no fault, timer unarmed, channel empty, no event presented. -/
def State.powerOn (c : Config) : State where
  cfg := c
  a := Sender.powerOn c
  b := Receiver.powerOn c
  fault := ⟨0#8, none⟩
  timer := ⟨false, 0⟩
  chanAB := []
  chanBA := []
  delivered := []
  inbox := []
  resp := none

/-- The machine right after reset: power-on under the reference instance (log 2, log 3). -/
def State.reset : State := State.powerOn Config.reference

end Sys2Proof.Machine
end

