-- ==== Sys2Proof/Machine/Flags.lean ====
section
/-! DEFINITION. The code values the spec gives to endpoints, tags, fault causes, output actions and result codes, and
the status the spec derives from registers. The block has no arithmetic flags (10_state.md R32). -/

namespace Sys2Proof.Machine

/-- `EP_A = 0`, `EP_B = 1` (00_scope.md R8). -/
def Endpoint.code : Endpoint → Nat
  | .a => 0
  | .b => 1

/-- `EMPTY = 0`, `INFLIGHT = 1`, `ACKED = 2` (10_state.md R23). -/
def SlotTag.code : SlotTag → BitVec 2
  | .empty => 0#2
  | .inflight => 1#2
  | .acked => 2#2

/-- The bit of `FAULT` that a cause sets (60_exceptions.md R163). -/
def FaultCause.bit : FaultCause → Nat
  | .illegalEvent => 0
  | .notInit => 1
  | .reinit => 2
  | .config => 3
  | .rxSeqRange => 4

/-- `bit(F)`: the value `FAULT` takes when `F` is raised (60_exceptions.md R164). -/
def FaultCause.mask (f : FaultCause) : BitVec 8 := BitVec.ofNat 8 (2 ^ f.bit)

/-- The kind codes of output actions (30_encoding.md R78). -/
def Action.kind : Action → Nat
  | .tx _ _ => 0
  | .deliver _ _ => 1
  | .tstart _ _ => 2
  | .tstop _ => 3

/-- The endpoint an output action names (30_encoding.md R78). -/
def Action.endpoint : Action → Endpoint
  | .tx ep _ => ep
  | .deliver ep _ => ep
  | .tstart ep _ => ep
  | .tstop ep => ep

/-- The 4-bit `RES` value (30_encoding.md R76). -/
def ResultCode.code : ResultCode → BitVec 4
  | .initDone => 0x0#4
  | .sendOk => 0x1#4
  | .sendFull => 0x2#4
  | .ackCorrupt => 0x3#4
  | .ackDup => 0x4#4
  | .ackStale => 0x5#4
  | .ackSack => 0x6#4
  | .ackSlide => 0x7#4
  | .toRetx => 0x8#4
  | .toIgnored => 0x9#4
  | .rxCorrupt => 0xA#4
  | .rxNew => 0xB#4
  | .rxDup => 0xC#4
  | .ckDone => 0xD#4
  | .faulted => 0xE#4

/-- The sender's control states (10_state.md R25). -/
inductive ControlState where
  /-- The window is not full. -/
  | idleWithRoom
  /-- The window is full. -/
  | blocked
  deriving DecidableEq, Repr

/-- The control state is a function of `A.count` (10_state.md R25). -/
def controlState (c : Config) (a : Sender) : ControlState :=
  if a.count < c.W then .idleWithRoom else .blocked

/-- The timer's expiry is pending while `T.armed = 1` (60_exceptions.md R168). -/
def expiryPending (s : State) : Bool := s.timer.armed

/-- Once `FAULT != 0` the block is quiescent (60_exceptions.md R164). -/
def isFaulted (s : State) : Bool := s.fault.reg != 0#8

end Sys2Proof.Machine
end

