-- ==== Sys2Proof/WellFormed.lean ====
section
/-! DEFINITION. Well-formed instructions under a configuration: a payload has exactly `L` bytes (30_encoding.md R70,
R72, R74). -/

namespace Sys2Proof

/-- A packet's payload has exactly `L` bytes (30_encoding.md R72). -/
def Packet.wellFormed (c : Config) (p : Packet) : Bool := p.payload.length == c.L

/-- The operand of an event has exactly the shape its format gives it (30_encoding.md R70, R74). -/
def Instr.wellFormed (c : Config) : Instr → Bool
  | .aInit => true
  | .aSend pay => pay.length == c.L
  | .aRx pkt => pkt.wellFormed c
  | .aTimeout => true
  | .ckCompute pkt => pkt.wellFormed c
  | .ckVerify pkt => pkt.wellFormed c
  | .bInit => true
  | .bRx pkt => pkt.wellFormed c

end Sys2Proof
end

