-- ==== Sys2Proof/Decode.lean ====
section
/-! DEFINITION. The decoder, total on any transaction and rejecting by name, and after it the encoder, both written
from the opcode map and the reference bus layout (30_encoding.md R70 to R74, R77, R79, R80). -/

namespace Sys2Proof

/-- `side` = `EV[3]`: 0 for endpoint A and the shared integrity unit, 1 for endpoint B (30_encoding.md R70). -/
def evSide (ev : EventWord) : Bool := ev.getLsbD 3

/-- `op` = `EV[2:0]` (30_encoding.md R70). -/
def evOp (ev : EventWord) : BitVec 3 := ev.extractLsb' 0 3

/-- The event word of each operation (30_encoding.md R77). -/
def Op.word : Op → EventWord
  | .aInit => 0x0#4
  | .aSend => 0x1#4
  | .aRx => 0x2#4
  | .aTimeout => 0x3#4
  | .ckCompute => 0x4#4
  | .ckVerify => 0x5#4
  | .bInit => 0x8#4
  | .bRx => 0xA#4

/-- The operand format of each operation (30_encoding.md R77). -/
def Op.format : Op → Format
  | .aInit => .none
  | .aSend => .payload
  | .aRx => .packet
  | .aTimeout => .none
  | .ckCompute => .packet
  | .ckVerify => .packet
  | .bInit => .none
  | .bRx => .packet

/-- The opcode map by the full 4-bit value of the event word (30_encoding.md R71, R77); `none` for the eight words of
R79. -/
def opOfWord (ev : EventWord) : Option Op :=
  match ev.toNat with
  | 0x0 => some .aInit
  | 0x1 => some .aSend
  | 0x2 => some .aRx
  | 0x3 => some .aTimeout
  | 0x4 => some .ckCompute
  | 0x5 => some .ckVerify
  | 0x8 => some .bInit
  | 0xA => some .bRx
  | _ => none

/-- The number of operand bytes of a format: a payload is `8*L` bits, a packet `64 + 8*L + 32` (30_encoding.md R73,
R74). -/
def Format.operandBytes (c : Config) : Format → Nat
  | .none => 0
  | .payload => c.L
  | .packet => 12 + c.L

/-- The number whose byte `k` is bits `[8*k+7 : 8*k]` (30_encoding.md R73). -/
def natOfBytes : List Byte → Nat
  | [] => 0
  | b :: bs => b.toNat + 256 * natOfBytes bs

/-- The first `n` bytes of a number, byte `k` being its bits `[8*k+7 : 8*k]` (30_encoding.md R73). -/
def bytesOfNat : Nat → Nat → List Byte
  | 0, _ => []
  | n + 1, v => BitVec.ofNat 8 v :: bytesOfNat n (v / 256)

/-- A 32-bit field read from its four bytes on the bus (30_encoding.md R73). -/
def fieldOfBytes (bs : List Byte) : Bits32 := BitVec.ofNat 32 (natOfBytes bs)

/-- The four bytes of a 32-bit field on the bus (30_encoding.md R73). -/
def bytesOfField (x : Bits32) : List Byte := bytesOfNat 4 x.toNat

/-- A packet read from the operand bus: seqnum, acknum, payload of `L` bytes, checksum (30_encoding.md R73). -/
def packetOfBytes (L : Nat) (bs : List Byte) : Packet where
  seqnum := fieldOfBytes (bs.take 4)
  acknum := fieldOfBytes ((bs.drop 4).take 4)
  payload := (bs.drop 8).take L
  checksum := fieldOfBytes ((bs.drop (8 + L)).take 4)

/-- A packet on the operand bus (30_encoding.md R73). -/
def bytesOfPacket (p : Packet) : List Byte :=
  bytesOfField p.seqnum ++ bytesOfField p.acknum ++ p.payload ++ bytesOfField p.checksum

/-- Why a transaction is no event of the opcode map. -/
inductive Reject where
  /-- The event word is illegal or reserved, whatever its operand (30_encoding.md R79). -/
  | illegalEvent (ev : EventWord)
  /-- The operand has not the bytes of the event's format; such a transaction "cannot be presented" (30_encoding.md
  R70, R74; log 8). -/
  | operandShape (ev : EventWord)
  deriving DecidableEq, Repr

/-- The instruction of an operation whose operand bytes have the format's length (30_encoding.md R70, R71). -/
def instrOfOp (c : Config) (o : Op) (bs : List Byte) : Instr :=
  match o with
  | .aInit => .aInit
  | .aSend => .aSend bs
  | .aRx => .aRx (packetOfBytes c.L bs)
  | .aTimeout => .aTimeout
  | .ckCompute => .ckCompute (packetOfBytes c.L bs)
  | .ckVerify => .ckVerify (packetOfBytes c.L bs)
  | .bInit => .bInit
  | .bRx => .bRx (packetOfBytes c.L bs)

/-- Decoding: the event word selects the operation, its format fixes the operand (30_encoding.md R71, R79, R80). -/
def decode (c : Config) (t : Transaction) : Except Reject Instr :=
  match opOfWord t.ev with
  | none => .error (.illegalEvent t.ev)
  | some o =>
    if t.operand.length = o.format.operandBytes c then .ok (instrOfOp c o t.operand)
    else .error (.operandShape t.ev)

/-- The operand bytes of an instruction on the reference bus (30_encoding.md R73, R74). -/
def operandOf : Instr → List Byte
  | .aInit => []
  | .aSend pay => pay
  | .aRx pkt => bytesOfPacket pkt
  | .aTimeout => []
  | .ckCompute pkt => bytesOfPacket pkt
  | .ckVerify pkt => bytesOfPacket pkt
  | .bInit => []
  | .bRx pkt => bytesOfPacket pkt

/-- The transaction of an instruction (30_encoding.md R70, R77). -/
def encode (i : Instr) : Transaction where
  ev := i.op.word
  operand := operandOf i

/-- The number of operand bytes that the event word `ev` takes; none for a word of 30_encoding.md R79. -/
def operandBytesOfWord (c : Config) (ev : EventWord) : Nat :=
  match opOfWord ev with
  | none => 0
  | some o => o.format.operandBytes c

/-- The transaction whose bits are the low `nbits` bits of `w`, every bit above them 0: bits 3..0 are the event word
and the operand bus counts on from bit 4 (the numbering of spec/opcode_table.json; log 7). -/
def transactionOfBits (c : Config) (nbits w : Nat) : Transaction :=
  let v := w % 2 ^ nbits
  let ev : EventWord := BitVec.ofNat 4 v
  ⟨ev, bytesOfNat (operandBytesOfWord c ev) (v / 16)⟩

/-- What the decoder reads from the bits `w`, under the reference configuration (log 7). -/
def decodeTableWord (nbits w : Nat) : Option Instr :=
  match decode Config.reference (transactionOfBits Config.reference nbits w) with
  | .ok i => some i
  | .error _ => none

end Sys2Proof
end

