-- ==== Sys2Proof/Machine/Operands.lean ====
section
/-! DEFINITION. Packet values: the checksum and the corruption test (40_integrity.md R100, R101), and packet construction
(00_scope.md R12). -/

namespace Sys2Proof.Machine

/-- `ext8(b)`: how a payload byte enters the sum (40_integrity.md R100; 00_scope.md R9). -/
def ext8 (c : Config) (b : Byte) : Bits32 :=
  match c.BYTE_SIGN with
  | .unsigned => b.zeroExtend 32
  | .signed => b.signExtend 32

/-- The loop of 40_integrity.md R100: each payload byte is added modulo 2^32. -/
def addBytes (c : Config) (acc : Bits32) : List Byte → Bits32
  | [] => acc
  | b :: bs => addBytes c (acc + ext8 c b) bs

/-- `computeChecksum(p)`; `p.checksum` is not an input (40_integrity.md R100). -/
def computeChecksum (c : Config) (p : Packet) : Bits32 :=
  addBytes c (p.seqnum + p.acknum) p.payload

/-- `isCorrupted(p)`: the stored checksum is not the computed one, over all 32 bits (40_integrity.md R101). -/
def isCorrupted (c : Config) (p : Packet) : Bool := p.checksum != computeChecksum c p

/-- `mkpkt(s, a, pl)` with its checksum computed; the caller gives `s` and `a` as words (00_scope.md R12). -/
def mkpkt (c : Config) (s a : Bits32) (pl : List Byte) : Packet :=
  { seqnum := s, acknum := a, payload := pl, checksum := computeChecksum c ⟨s, a, pl, 0#32⟩ }

/-- `fill(b)`: `L` copies of a byte (00_scope.md R12). -/
def fill (c : Config) (b : Byte) : List Byte := List.replicate c.L b

/-- A data packet exactly as A builds it (41_sender.md R111; 30_encoding.md R82). -/
def dataPacket (c : Config) (s : Int) (pl : List Byte) : Packet := mkpkt c (word s) c.NOTINUSE pl

/-- An acknowledgment exactly as B builds it (42_receiver.md R142; 30_encoding.md R82). -/
def ackPacket (c : Config) (b k : Int) : Packet := mkpkt c (word b) (word k) (fill c c.ACK_FILL)

end Sys2Proof.Machine
end

