-- ==== Sys2Proof/Machine/Ops.lean ====
section
/-! DEFINITION. The operations that meanings share: access to the two arrays, the configuration check, responses, the
host's reaction to a response, taking a fault (60_exceptions.md R164), event admission (R165), the host's delivery of an
expiry (R172), and fetching the next event. -/

namespace Sys2Proof.Machine

/-! ### The window buffer (20_memory.md R51) -/

/-- `A.buf[i]`. Outside the buffer, where the spec says no index arises, it reads as an EMPTY slot; `windowAddressable`
keeps the sender's rules from reading there (log 13). -/
def Sender.slotAt (a : Sender) (i : Nat) : Slot := a.buf.getD i ⟨.empty, zeroPacket 0⟩

/-- `A.buf[i] <- sl`. -/
def Sender.setSlot (a : Sender) (i : Nat) (sl : Slot) : Sender := { a with buf := a.buf.set i sl }

/-- `A.buf[i].tag <- t`. -/
def Sender.setTag (a : Sender) (i : Nat) (t : SlotTag) : Sender :=
  a.setSlot i ⟨t, (a.slotAt i).pkt⟩

/-- The index `(A.first + j) mod W` of the slot at position `j` (10_state.md R24). -/
def Sender.indexOf (c : Config) (a : Sender) (j : Nat) : Nat := (a.first + j) % c.W

/-- lo: the sequence number of the oldest slot (10_state.md R24). -/
def Sender.lo (a : Sender) : Int := sint (a.slotAt a.first).pkt.seqnum

/-- hi: the sequence number of the newest slot (10_state.md R24). -/
def Sender.hi (a : Sender) : Int := sint (a.slotAt a.last).pkt.seqnum

/-- The buffer has its `W >= 1` slots and both cursors are among their indices (20_memory.md R51; log 13). -/
abbrev Sender.windowAddressable (c : Config) (a : Sender) : Prop :=
  0 < c.W ∧ a.buf.length = c.W ∧ a.first < c.W ∧ a.last < c.W

/-! ### Diagnostic counters (10_state.md R26) -/

/-- `A.cnt_wfull <- A.cnt_wfull + 1 (mod 2^32)`. -/
def Sender.countFull (a : Sender) : Sender := { a with cnt_wfull := a.cnt_wfull + 1#32 }

/-- `A.cnt_ackcorrupt <- A.cnt_ackcorrupt + 1 (mod 2^32)`. -/
def Sender.countCorrupt (a : Sender) : Sender := { a with cnt_ackcorrupt := a.cnt_ackcorrupt + 1#32 }

/-- `A.cnt_ackdup <- A.cnt_ackdup + 1 (mod 2^32)`. -/
def Sender.countDup (a : Sender) : Sender := { a with cnt_ackdup := a.cnt_ackdup + 1#32 }

/-! ### The delivery record (20_memory.md R52) -/

/-- `B.dlv[s] = 1`: sequence number `s` has been delivered (42_receiver.md R140). -/
def Receiver.hasDelivered (b : Receiver) (s : Nat) : Bool := b.dlv.getD s false

/-- `B.dlv[s] <- 1` (42_receiver.md R140). -/
def Receiver.record (b : Receiver) (s : Nat) : Receiver := { b with dlv := b.dlv.set s true }

/-- `B.nseq <- 1 - B.nseq` (42_receiver.md R141). -/
def Receiver.toggle (b : Receiver) : Receiver := { b with nseq := 1#1 - b.nseq }

/-- The record has its `S` bits (20_memory.md R52; log 13). -/
abbrev Receiver.recordAddressable (c : Config) (b : Receiver) : Prop := b.dlv.length = c.S

/-! ### The configuration check -/

/-- `x` lies in `[0, S)`. -/
abbrev inSeqSpace (c : Config) (x : Int) : Prop := 0 ≤ x ∧ x < (c.S : Int)

/-- Clause 6: `LASTACK_RESET` is `NONE` or in `[0, S)` (00_scope.md R7). -/
def lastackResetLegal (c : Config) : Bool :=
  match c.LASTACK_RESET with
  | none => true
  | some k => decide (inSeqSpace c k)

/-- The clauses of 00_scope.md R7, in R191's order. -/
def configClauses (c : Config) : List Bool :=
  [ decide (1 ≤ c.W),
    decide (2 * c.W ≤ c.S),
    decide (c.S ≤ 2 ^ 31),
    decide (¬ inSeqSpace c (sint c.NOTINUSE)),
    decide (c.B_SEQ_RESET = 0 ∨ c.B_SEQ_RESET = 1),
    lastackResetLegal c,
    decide (1 ≤ c.L),
    decide (c.RTT + 1 ≤ 2 ^ 32 - 1) ]

/-- The number of the first false clause of a list whose first clause has number `n`; 0 if none is false. -/
def firstFalse (n : Nat) : List Bool → Nat
  | [] => 0
  | true :: bs => firstFalse (n + 1) bs
  | false :: _ => n

/-- `firstViolatedClause()` (70_reset_and_hazards.md R191). -/
def firstViolatedClause (c : Config) : Nat := firstFalse 1 (configClauses c)

/-! ### Responses (30_encoding.md R75) -/

/-- A response with a result code and outputs; `ACC`, `CKV` and `COR` are 0, as 30_encoding.md R75 says of every event but
the one each belongs to. In a FAULTED response of A.SEND, CK.COMPUTE or CK.VERIFY no rule fixes them, and 0 is the model's
DESIGN CHOICE (log 21). -/
def Response.ofOut (res : ResultCode) (out : List Action) : Response := ⟨res, false, 0#32, false, out⟩

/-- A response with a result code and no output; the other fields as in `Response.ofOut`. -/
def Response.of (res : ResultCode) : Response := Response.ofOut res []

/-! ### The host's reaction to a response -/

/-- The host applies one timer action; endpoint B has no timer (60_exceptions.md R171; 10_state.md R30). -/
def applyTimer (t : Timer) : Action → Timer
  | .tstart .a d => ⟨true, d⟩
  | .tstop .a => { t with armed := false }
  | .tstart .b _ => t
  | .tstop .b => t
  | .tx _ _ => t
  | .deliver _ _ => t

/-- The host applies the timer actions of `OUT` in order (60_exceptions.md R171). -/
def applyTimers (t : Timer) : List Action → Timer
  | [] => t
  | x :: xs => applyTimers (applyTimer t x) xs

/-- The packets an output list hands to the channel from one endpoint, in order (60_exceptions.md R173). -/
def sentBy (ep : Endpoint) : List Action → List Packet
  | [] => []
  | .tx e p :: xs => if e = ep then p :: sentBy ep xs else sentBy ep xs
  | .deliver _ _ :: xs => sentBy ep xs
  | .tstart _ _ :: xs => sentBy ep xs
  | .tstop _ :: xs => sentBy ep xs

/-- The payloads an output list hands to the application at B, in order (60_exceptions.md R174). -/
def deliveredBy : List Action → List (List Byte)
  | [] => []
  | .deliver .b bytes :: xs => bytes :: deliveredBy xs
  | .deliver .a _ :: xs => deliveredBy xs
  | .tx _ _ :: xs => deliveredBy xs
  | .tstart _ _ :: xs => deliveredBy xs
  | .tstop _ :: xs => deliveredBy xs

/-- The event returns: its response is latched, and the host applies `OUT` to the timer, the channel and the
application (30_encoding.md R75; 60_exceptions.md R171, R173, R174; log 9, log 10, log 12). -/
def State.publish (s : State) (r : Response) : State :=
  { s with
    timer := applyTimers s.timer r.out
    chanAB := s.chanAB ++ sentBy .a r.out
    chanBA := s.chanBA ++ sentBy .b r.out
    delivered := s.delivered ++ deliveredBy r.out
    resp := some r }

/-- `result C`: the event ends with a response (00_scope.md R11). -/
def finish (s : State) (r : Response) : Answer := .next (s.publish r)

/-- An event of the sender ends with the sender's new state and a response. -/
def finishSender (s : State) (x : Sender × Response) : Answer := finish { s with a := x.1 } x.2

/-- An event of the receiver ends with the receiver's new state and a response. -/
def finishReceiver (s : State) (x : Receiver × Response) : Answer := finish { s with b := x.1 } x.2

/-! ### Taking a fault -/

/-- `FAULT <- bit(F); FAULT_INFO <- info`, for the first fault only (60_exceptions.md R164). -/
def FaultRecord.record (f : FaultRecord) (cause : FaultCause) (info : FaultInfo) : FaultRecord :=
  if f.reg = 0#8 then ⟨cause.mask, some info⟩ else f

/-- `raise F(info)`: the fault record is the only state written, and `OUT` is empty (60_exceptions.md R164). The block
has no return from a fault: `FAULT` is never cleared (R164, R167). The response's other fields: log 21. -/
def raiseFault (cause : FaultCause) (ev : EventWord) (value : Bits32) (s : State) : Answer :=
  finish { s with fault := s.fault.record cause ⟨ev, value⟩ } (Response.of .faulted)

/-! ### Event admission (60_exceptions.md R165) -/

/-- Check 1: a faulted block answers FAULTED and writes no state (60_exceptions.md R164, R165). The response's other fields:
log 21. -/
def unlessFaulted (s : State) (rule : Answer) : Answer :=
  if s.fault.reg ≠ 0#8 then finish s (Response.of .faulted) else rule

/-- Checks 1 and 5 for A.SEND, A.RX and A.TIMEOUT (60_exceptions.md R165), and the address check of log 13. -/
def admitSender (o : Op) (s : State) (rule : Answer) : Answer :=
  unlessFaulted s (
    if s.a.init = false then raiseFault .notInit o.word 0#32 s
    else if s.a.windowAddressable s.cfg then rule
    else .fault .windowIndex)

/-- Checks 1 and 5 for B.RX (60_exceptions.md R165), and the address check of log 13. -/
def admitReceiver (o : Op) (s : State) (rule : Answer) : Answer :=
  unlessFaulted s (
    if s.b.init = false then raiseFault .notInit o.word 0#32 s
    else if s.b.recordAddressable s.cfg then rule
    else .fault .recordIndex)

/-- Check 2: an event word that is not in the opcode map (60_exceptions.md R165; 30_encoding.md R79). -/
def execIllegal (ev : EventWord) (s : State) : Answer :=
  unlessFaulted s (raiseFault .illegalEvent ev 0#32 s)

/-! ### The host presents events -/

/-- The host may present an expiry while the timer is armed, and otherwise only if SPURIOUS_TIMEOUT is true
(60_exceptions.md R172). -/
abbrev State.expiryAllowed (s : State) : Prop := s.timer.armed = true ∨ s.cfg.SPURIOUS_TIMEOUT = true

/-- Presenting an expiry sets `T.armed <- 0` (60_exceptions.md R172). -/
def State.disarm (s : State) : State := { s with timer := { s.timer with armed := false } }

/-- The host presents an expiry (60_exceptions.md R172; log 10, log 11). -/
def presentExpiry (s : State) (rule : State → Answer) : Answer :=
  if s.expiryAllowed then rule s.disarm else .refused .expiryNotPresentable

/-- The next event the host presents, and the state with it taken from the inbox (log 6). -/
def fetch (s : State) : Option (Transaction × State) :=
  match s.inbox with
  | [] => none
  | t :: rest => some (t, { s with inbox := rest })

/-- Between events the block does nothing and holds its state (60_exceptions.md R178; 00_scope.md R5). -/
def idle (s : State) : Answer := .next s

/-- A transaction that cannot be presented (30_encoding.md R74; log 8). -/
def refuseOperand (ev : EventWord) : Answer := .refused (.operandNotPresentable ev)

end Sys2Proof.Machine
end

