-- ==== Sys2Proof/Machine/Init.lean ====
section
/-! DEFINITION. The initialisation events A.INIT and B.INIT (70_reset_and_hazards.md R190 to R195). -/

namespace Sys2Proof.Machine

/-- The buffer after A.INIT: `W` slots, every tag EMPTY, every packet left as it was, since A.INIT writes only tags
(70_reset_and_hazards.md R190; 20_memory.md R51; log 5). -/
def emptiedBuf (c : Config) (a : Sender) : List Slot :=
  (List.range c.W).map fun i => ⟨.empty, (a.slotAt i).pkt⟩

/-- The sender's registers after A.INIT (70_reset_and_hazards.md R190; 10_state.md R37). -/
def initSender (c : Config) (a : Sender) : Sender where
  init := true
  first := 0
  last := c.W - 1
  count := 0
  nextseq := 0
  lastack_v := c.LASTACK_RESET.isSome
  lastack := (c.LASTACK_RESET.getD 0).toNat
  trail := 0
  buf := emptiedBuf c a
  cnt_wfull := 0#32
  cnt_ackcorrupt := 0#32
  cnt_ackdup := 0#32

/-- `A.INIT` (70_reset_and_hazards.md R190). -/
def execAInit (s : State) : Answer :=
  unlessFaulted s (
    if s.a.init = true then raiseFault .reinit Op.aInit.word 0#32 s
    else if firstViolatedClause s.cfg ≠ 0 then
      raiseFault .config Op.aInit.word (BitVec.ofNat 32 (firstViolatedClause s.cfg)) s
    else finishSender s (initSender s.cfg s.a, Response.of .initDone))

/-- The receiver's registers after B.INIT (70_reset_and_hazards.md R192; 10_state.md R37). -/
def initReceiver (c : Config) : Receiver where
  init := true
  dlv := List.replicate c.S false
  nseq := BitVec.ofNat 1 c.B_SEQ_RESET

/-- `B.INIT` (70_reset_and_hazards.md R192). -/
def execBInit (s : State) : Answer :=
  unlessFaulted s (
    if s.b.init = true then raiseFault .reinit Op.bInit.word 0#32 s
    else if firstViolatedClause s.cfg ≠ 0 then
      raiseFault .config Op.bInit.word (BitVec.ofNat 32 (firstViolatedClause s.cfg)) s
    else finishReceiver s (initReceiver s.cfg, Response.of .initDone))

end Sys2Proof.Machine
end

