-- ==== Sys2Proof/Machine/Integrity.lean ====
section
/-! DEFINITION. The integrity unit's events (40_integrity.md R102, R103). They need no INIT (60_exceptions.md R165,
check 3). -/

namespace Sys2Proof.Machine

/-- `CK.COMPUTE` (40_integrity.md R102). -/
def execCkCompute (pkt : Packet) (s : State) : Answer :=
  unlessFaulted s (finish s { Response.of .ckDone with ckv := computeChecksum s.cfg pkt })

/-- `CK.VERIFY` (40_integrity.md R103). -/
def execCkVerify (pkt : Packet) (s : State) : Answer :=
  unlessFaulted s (finish s { Response.of .ckDone with cor := isCorrupted s.cfg pkt })

end Sys2Proof.Machine
end

