-- ==== Sys2Proof/Machine/Receiver.lean ====
section
/-! DEFINITION. The receiver unit's event B.RX (42_receiver.md R141, R142). -/

namespace Sys2Proof.Machine

/-- The acknowledgment B sends for sequence number `q` (42_receiver.md R142). -/
def ackFor (c : Config) (b : Receiver) (q : Bits32) : Packet :=
  mkpkt c (b.nseq.zeroExtend 32) q (fill c c.ACK_FILL)

/-- The rule of B.RX for an uncorrupted packet whose sequence number is in `[0, S)`: record and deliver a fresh one,
acknowledge in both cases (42_receiver.md R141). -/
def acceptData (c : Config) (pkt : Packet) (b : Receiver) : Receiver × Response :=
  let q := (sint pkt.seqnum).toNat
  let ack := .tx .b (ackFor c b pkt.seqnum)
  if b.hasDelivered q = false then
    ((b.record q).toggle, Response.ofOut .rxNew [.deliver .b pkt.payload, ack])
  else (b.toggle, Response.ofOut .rxDup [ack])

/-- `B.RX`: corrupted, then out of range, then fresh or duplicate (42_receiver.md R141; 60_exceptions.md R166). -/
def execBRx (pkt : Packet) (s : State) : Answer :=
  admitReceiver .bRx s (
    if isCorrupted s.cfg pkt then finish s (Response.of .rxCorrupt)
    else if inSeqSpace s.cfg (sint pkt.seqnum) then finishReceiver s (acceptData s.cfg pkt s.b)
    else raiseFault .rxSeqRange Op.bRx.word pkt.seqnum s)

end Sys2Proof.Machine
end

