-- ==== Sys2Proof/Machine/Sender.lean ====
section
/-! DEFINITION. The sender unit's events A.SEND, A.RX and A.TIMEOUT (41_sender.md R111 to R119). -/

namespace Sys2Proof.Machine

/-! ### A.SEND -/

/-- The accepting branch of 41_sender.md R111. -/
def acceptSend (c : Config) (pay : List Byte) (a : Sender) : Sender × Response :=
  let p := mkpkt c (word a.nextseq) c.NOTINUSE pay
  let last := (a.last + 1) % c.W
  let a := { a with last := last, count := a.count + 1, nextseq := (a.nextseq + 1) % c.S }.setSlot last ⟨.inflight, p⟩
  let out := .tx .a p :: (if a.count = 1 then [.tstart .a c.RTT] else [])
  (a, { Response.ofOut .sendOk out with acc := true })

/-- The rule of A.SEND (41_sender.md R111). -/
def sendRule (c : Config) (pay : List Byte) (a : Sender) : Sender × Response :=
  if a.count < c.W then acceptSend c pay a else (a.countFull, Response.of .sendFull)

/-- `A.SEND` (41_sender.md R111). -/
def execASend (pay : List Byte) (s : State) : Answer :=
  admitSender .aSend s (finishSender s (sendRule s.cfg pay s.a))

/-! ### A.RX -/

/-- `inRange(k)` (41_sender.md R113). -/
def inRange (c : Config) (a : Sender) (k : Int) : Bool :=
  if k < 0 ∨ (c.S : Int) ≤ k then false
  else if a.lo ≤ a.hi then decide (a.lo ≤ k ∧ k ≤ a.hi)
  else decide (a.lo ≤ k ∨ k ≤ a.hi)

/-- `sackIndex(k)` (41_sender.md R114). -/
def sackIndex (c : Config) (a : Sender) (k : Int) : Nat :=
  (a.first + ((k - a.lo) % (c.S : Int)).toNat) % c.W

/-- The `while` loop of 41_sender.md R115, which counts in `A.trail` the contiguous ACKED slots after the oldest. It
runs fewer than `A.count` times, which the first argument bounds. -/
def scanTrail (c : Config) : Nat → Sender → Sender
  | 0, a => a
  | fuel + 1, a =>
    if a.trail + 1 < a.count ∧ (a.slotAt (a.indexOf c (1 + a.trail))).tag = .acked then
      scanTrail c fuel { a with trail := a.trail + 1 }
    else a

/-- The `for` loop of 41_sender.md R115: the `n` oldest slots become EMPTY. -/
def clearOldest (c : Config) : Nat → Sender → Sender
  | 0, a => a
  | n + 1, a => (clearOldest c n a).setTag (a.indexOf c n) .empty

/-- `slide()` (41_sender.md R115). -/
def slide (c : Config) (a : Sender) : Sender :=
  let a := scanTrail c a.count { a with trail := 0 }
  let n := 1 + a.trail
  { clearOldest c n a with first := (a.first + n) % c.W, count := a.count - n, trail := 0 }

/-- `A.lastack_v <- 1; A.lastack <- k`, for a `k` in `[0, S)` (41_sender.md R112). -/
def Sender.acceptAck (a : Sender) (k : Int) : Sender := { a with lastack_v := true, lastack := k.toNat }

/-- `k` repeats lastACK (41_sender.md R112). -/
abbrev Sender.repeatsLastAck (a : Sender) (k : Int) : Prop := a.lastack_v = true ∧ k = (a.lastack : Int)

/-- The timer actions of a slide (41_sender.md R116). -/
def slideTimers (c : Config) (a : Sender) : List Action :=
  .tstop .a :: (if 0 < a.count then [.tstart .a (c.RTT + 1)] else [])

/-- The accepting branch of 41_sender.md R112: `k` is new and in range. -/
def acceptAckRule (c : Config) (k : Int) (a : Sender) : Sender × Response :=
  let a := a.acceptAck k
  if k ≠ a.lo then (a.setTag (sackIndex c a k) .acked, Response.of .ackSack)
  else
    let a := slide c a
    (a, Response.ofOut .ackSlide (slideTimers c a))

/-- The rule of A.RX: corrupted, then duplicate, then stale, then accepted (41_sender.md R112; 60_exceptions.md
R166). -/
def ackRule (c : Config) (pkt : Packet) (a : Sender) : Sender × Response :=
  if isCorrupted c pkt then (a.countCorrupt, Response.of .ackCorrupt)
  else if a.count = 0 ∨ a.repeatsLastAck (sint pkt.acknum) then (a.countDup, Response.of .ackDup)
  else if inRange c a (sint pkt.acknum) = false then (a.countDup, Response.of .ackStale)
  else acceptAckRule c (sint pkt.acknum) a

/-- `A.RX` (41_sender.md R112). -/
def execARx (pkt : Packet) (s : State) : Answer :=
  admitSender .aRx s (finishSender s (ackRule s.cfg pkt s.a))

/-! ### A.TIMEOUT -/

/-- The rule of A.TIMEOUT; it writes no sender state (41_sender.md R117, R119). -/
def timeoutRule (c : Config) (a : Sender) : Response :=
  if a.count = 0 then Response.of .toIgnored
  else if (a.slotAt a.first).tag = .acked then Response.of .toIgnored
  else Response.ofOut .toRetx [.tx .a (a.slotAt a.first).pkt, .tstart .a (c.RTT + 1)]

/-- `A.TIMEOUT`: the host presents the expiry (60_exceptions.md R172), then the event runs (41_sender.md R117). -/
def execATimeout (s : State) : Answer :=
  presentExpiry s fun s => admitSender .aTimeout s (finish s (timeoutRule s.cfg s.a))

end Sys2Proof.Machine
end

