-- ==== Sys2Proof/Machine/Dispatch.lean ====
section
/-! DEFINITION. One arm per instruction of the opcode map (30_encoding.md R77). -/

namespace Sys2Proof.Machine

def exec (i : Instr) (s : State) : Host.Outcome State Fault Refusal :=
  match i with
  | .aInit => Sys2Proof.Machine.execAInit s
  | .aSend pay => Sys2Proof.Machine.execASend pay s
  | .aRx pkt => Sys2Proof.Machine.execARx pkt s
  | .aTimeout => Sys2Proof.Machine.execATimeout s
  | .ckCompute pkt => Sys2Proof.Machine.execCkCompute pkt s
  | .ckVerify pkt => Sys2Proof.Machine.execCkVerify pkt s
  | .bInit => Sys2Proof.Machine.execBInit s
  | .bRx pkt => Sys2Proof.Machine.execBRx pkt s

end Sys2Proof.Machine
end

