-- ==== Sys2Proof/Machine/Step.lean ====
section
/-! DEFINITION. One step: the host's next event is fetched, decoded and run; with no event presented the block holds its
state (60_exceptions.md R165, R178; log 6). -/

namespace Sys2Proof.Machine

/-- One step of the machine. -/
def step (s : State) : Host.Outcome State Fault Refusal :=
  match fetch s with
  | none => idle s
  | some (t, s') =>
    match decode s'.cfg t with
    | .ok i => exec i s'
    | .error (.illegalEvent ev) => execIllegal ev s'
    | .error (.operandShape ev) => refuseOperand ev

/-- `s` with the event of the bits `w` presented next (log 6, log 7). -/
def State.withFetchWord (s : State) (nbits w : Nat) : State :=
  { s with inbox := transactionOfBits s.cfg nbits w :: s.inbox }

end Sys2Proof.Machine
end

