-- ==== Sys2Proof/Machine/EventText.lean ====
section
/-! DEFINITION. The event text of 30_encoding.md R81 and R82: its terms, the event each line stands for, and the reader
of a line. No step reads it; a host writes its events in it (log 20). -/

namespace Sys2Proof.Machine

/-- An `<int>` of the event text: decimal, or 8 hex digits taken as a word (30_encoding.md R81). -/
inductive IntText where
  | dec (v : Int)
  | hex (w : Bits32)
  deriving DecidableEq, Repr

/-- A decimal `<int>` lies in `[-2^31, 2^31)` (30_encoding.md R81). -/
def IntText.value : IntText → Option Bits32
  | .dec v => if -2147483648 ≤ v ∧ v < 2147483648 then some (word v) else none
  | .hex w => some w

/-- The `<payload>` forms of the event text (30_encoding.md R81). -/
inductive PayloadText where
  /-- `"text"`: exactly `L` ASCII characters. -/
  | text (cs : List Char)
  /-- `msg('c')`: `L` copies of the ASCII code of `c`. -/
  | msg (ch : Char)
  /-- `fill(0xHH)`: `L` copies of a byte. -/
  | fill (b : Byte)
  /-- `bytes(b0, ..., b_{L-1})`. -/
  | bytes (bs : List Byte)
  deriving DecidableEq, Repr

/-- The ASCII code of a character; none for a character that is not ASCII. -/
def asciiCode (ch : Char) : Option Byte :=
  if ch.toNat < 128 then some (BitVec.ofNat 8 ch.toNat) else none

/-- The payload a `<payload>` stands for, of exactly `L` bytes (30_encoding.md R81). -/
def PayloadText.value (c : Config) : PayloadText → Option (List Byte)
  | .text cs => if cs.length = c.L then cs.mapM asciiCode else none
  | .msg ch => (asciiCode ch).map (List.replicate c.L)
  | .fill b => some (List.replicate c.L b)
  | .bytes bs => if bs.length = c.L then some bs else none

/-- `{seq=<int>, ack=<int>, pl=<payload>, cs=<int>}` (30_encoding.md R81). -/
structure PacketText where
  seq : IntText
  ack : IntText
  pl : PayloadText
  cs : IntText
  deriving DecidableEq, Repr

/-- The packet a `<packet>` stands for (30_encoding.md R81). -/
def PacketText.value (c : Config) (t : PacketText) : Option Packet := do
  let seq ← t.seq.value
  let ack ← t.ack.value
  let pl ← t.pl.value c
  let cs ← t.cs.value
  return ⟨seq, ack, pl, cs⟩

/-- One line of the event text, the pseudo-events among them (30_encoding.md R81, R82). -/
inductive EventText where
  | aInit
  | aSend (pl : PayloadText)
  | aRx (p : PacketText)
  | aTimeout
  | bInit
  | bRx (p : PacketText)
  | ckCompute (p : PacketText)
  | ckVerify (p : PacketText)
  /-- `A.RXACK b, k`, and with a forced checksum `A.RXACK b, k, cs=c`. -/
  | aRxAck (b k : IntText) (cs : Option IntText)
  /-- `B.RXDATA s, pl`, and with a forced checksum `B.RXDATA s, pl, cs=c`. -/
  | bRxData (s : IntText) (pl : PayloadText) (cs : Option IntText)
  /-- `B.RXPKT p`, `p` a packet that an earlier A event emitted. -/
  | bRxPkt (p : Packet)
  deriving DecidableEq, Repr

/-- `p with checksum = c` when a checksum is forced, else `p` (30_encoding.md R82; 00_scope.md R12). -/
def withForcedChecksum (p : Packet) : Option IntText → Option Packet
  | none => some p
  | some t => t.value.map fun v => { p with checksum := v }

/-- The one event a line of the event text stands for (30_encoding.md R81, R82). -/
def EventText.assemble (c : Config) : EventText → Option Instr
  | .aInit => some .aInit
  | .aSend pl => (pl.value c).map Instr.aSend
  | .aRx p => (p.value c).map Instr.aRx
  | .aTimeout => some .aTimeout
  | .bInit => some .bInit
  | .bRx p => (p.value c).map Instr.bRx
  | .ckCompute p => (p.value c).map Instr.ckCompute
  | .ckVerify p => (p.value c).map Instr.ckVerify
  | .aRxAck b k cs => do
    let bw ← b.value
    let kw ← k.value
    let p ← withForcedChecksum (mkpkt c bw kw (Sys2Proof.Machine.fill c c.ACK_FILL)) cs
    return .aRx p
  | .bRxData s pl cs => do
    let sw ← s.value
    let bytes ← pl.value c
    let p ← withForcedChecksum (mkpkt c sw c.NOTINUSE bytes) cs
    return .bRx p
  | .bRxPkt p => some (.bRx p)

/-! ### Reading a line (30_encoding.md R81) -/

/-- The rest of a line after its spaces. -/
def skipSpaces : List Char → List Char
  | [] => []
  | x :: xs => if x = ' ' then skipSpaces xs else x :: xs

/-- The rest of a line that begins with the given characters. -/
def dropExactly : List Char → List Char → Option (List Char)
  | [], xs => some xs
  | _ :: _, [] => none
  | x :: xs, y :: ys => if x = y then dropExactly xs ys else none

/-- The rest of a line after spaces and the given characters. -/
def eat (word : List Char) (xs : List Char) : Option (List Char) := dropExactly word (skipSpaces xs)

/-- The longest beginning of a line whose characters pass a test, and the rest. -/
def spanChars (test : Char → Bool) : List Char → List Char × List Char
  | [] => ([], [])
  | x :: xs => if test x then (x :: (spanChars test xs).1, (spanChars test xs).2) else ([], x :: xs)

/-- The value of a digit in a base up to 16. -/
def digitValue (base : Nat) (x : Char) : Option Nat :=
  let v :=
    if '0' ≤ x ∧ x ≤ '9' then x.toNat - '0'.toNat
    else if 'a' ≤ x ∧ x ≤ 'f' then x.toNat - 'a'.toNat + 10
    else if 'A' ≤ x ∧ x ≤ 'F' then x.toNat - 'A'.toNat + 10
    else 16
  if v < base then some v else none

/-- The number a non-empty digit string writes. -/
def numberOf (base : Nat) (xs : List Char) : Option Nat :=
  if xs.isEmpty then none
  else xs.foldlM (fun acc x => (digitValue base x).map fun d => acc * base + d) 0

/-- The digits of a number, taken from the front of a line. -/
def spanDigits (base : Nat) (xs : List Char) : List Char × List Char :=
  spanChars (fun x => (digitValue base x).isSome) xs

/-- `0x` and exactly `n` hex digits. -/
def readHex (n : Nat) (xs : List Char) : Option (Nat × List Char) := do
  let xs ← eat ['0', 'x'] xs
  let ds := (spanDigits 16 xs).1
  let v ← numberOf 16 ds
  if ds.length = n then some (v, (spanDigits 16 xs).2) else none

/-- Decimal digits. -/
def readDec (xs : List Char) : Option (Nat × List Char) := do
  let xs := skipSpaces xs
  let v ← numberOf 10 (spanDigits 10 xs).1
  some (v, (spanDigits 10 xs).2)

/-- `<int>`: hex, or decimal with an optional sign. -/
def readInt (xs : List Char) : Option (IntText × List Char) :=
  match readHex 8 xs with
  | some (v, ys) => some (.hex (BitVec.ofNat 32 v), ys)
  | none =>
    match eat ['-'] xs with
    | some ys => (readDec ys).map fun r => (.dec (-(r.1 : Int)), r.2)
    | none => (readDec xs).map fun r => (.dec (r.1 : Int), r.2)

/-- A byte of `bytes(...)`: `0xHH` or a decimal number below 256 (DESIGN CHOICE, log 20). -/
def readByte (xs : List Char) : Option (Byte × List Char) :=
  match readHex 2 xs with
  | some (v, ys) => some (BitVec.ofNat 8 v, ys)
  | none =>
    match readDec xs with
    | some (v, ys) => if v < 256 then some (BitVec.ofNat 8 v, ys) else none
    | none => none

/-- A comma-separated list of bytes up to its closing parenthesis; the first argument bounds the bytes. -/
def readBytes : Nat → List Char → Option (List Byte × List Char)
  | 0, _ => none
  | n + 1, xs => do
    let (b, xs) ← readByte xs
    match eat [','] xs with
    | some xs => do
      let (bs, xs) ← readBytes n xs
      some (b :: bs, xs)
    | none => do
      let xs ← eat [')'] xs
      some ([b], xs)

/-- The ASCII double quote, apostrophe and braces. -/
def quoteChar : Char := Char.ofNat 34
def apostrophe : Char := Char.ofNat 39
def openBrace : Char := Char.ofNat 123
def closeBrace : Char := Char.ofNat 125

/-- `"text"`, which ends at the first double quote. A `;` inside the quotes is payload and begins no comment, and there is no
escape, so no text holds a double quote (DESIGN CHOICE, log 20: R81 says nothing of either). -/
def readText (xs : List Char) : Option (PayloadText × List Char) := do
  let xs ← eat [quoteChar] xs
  let (cs, ys) := spanChars (fun x => x != quoteChar) xs
  let ys ← dropExactly [quoteChar] ys
  some (.text cs, ys)

/-- `msg('c')`; `c` is any one character, `;`, a double quote and an apostrophe among them (DESIGN CHOICE, log 20). -/
def readMsg (xs : List Char) : Option (PayloadText × List Char) := do
  let xs ← eat ['m', 's', 'g', '(', apostrophe] xs
  match xs with
  | [] => none
  | ch :: ys => do
    let ys ← dropExactly [apostrophe, ')'] ys
    some (.msg ch, ys)

/-- `fill(0xHH)`. -/
def readFill (xs : List Char) : Option (PayloadText × List Char) := do
  let xs ← eat ['f', 'i', 'l', 'l', '('] xs
  let (v, xs) ← readHex 2 xs
  let xs ← eat [')'] xs
  some (.fill (BitVec.ofNat 8 v), xs)

/-- `bytes(b0, ..., b_{L-1})`. -/
def readBytesForm (xs : List Char) : Option (PayloadText × List Char) := do
  let xs ← eat ['b', 'y', 't', 'e', 's', '('] xs
  let (bs, xs) ← readBytes xs.length xs
  some (.bytes bs, xs)

/-- `<payload>`. -/
def readPayload (xs : List Char) : Option (PayloadText × List Char) :=
  readText xs <|> readMsg xs <|> readFill xs <|> readBytesForm xs

/-- `name=`. -/
def eatField (name xs : List Char) : Option (List Char) := do
  let xs ← eat name xs
  eat ['='] xs

/-- `<packet>`. -/
def readPacket (xs : List Char) : Option (PacketText × List Char) := do
  let xs ← eat [openBrace] xs
  let xs ← eatField ['s', 'e', 'q'] xs
  let (seq, xs) ← readInt xs
  let xs ← eat [','] xs
  let xs ← eatField ['a', 'c', 'k'] xs
  let (ack, xs) ← readInt xs
  let xs ← eat [','] xs
  let xs ← eatField ['p', 'l'] xs
  let (pl, xs) ← readPayload xs
  let xs ← eat [','] xs
  let xs ← eatField ['c', 's'] xs
  let (cs, xs) ← readInt xs
  let xs ← eat [closeBrace] xs
  some (⟨seq, ack, pl, cs⟩, xs)

/-- The optional `, cs=c` that forces a checksum (30_encoding.md R82). -/
def readForced (xs : List Char) : Option (Option IntText × List Char) :=
  match eat [','] xs with
  | none => some (none, xs)
  | some xs => do
    let xs ← eatField ['c', 's'] xs
    let (v, xs) ← readInt xs
    some (some v, xs)

/-- The operand of each mnemonic and the rest of the line; `names` are the packets that earlier A events emitted, by the
names a host gives them (30_encoding.md R81, R82). -/
def readOperand (names : List (List Char × Packet)) (mnemonic xs : List Char) : Option (EventText × List Char) :=
  if mnemonic = "A.INIT".toList then some (.aInit, xs)
  else if mnemonic = "A.SEND".toList then (readPayload xs).map fun r => (.aSend r.1, r.2)
  else if mnemonic = "A.RX".toList then (readPacket xs).map fun r => (.aRx r.1, r.2)
  else if mnemonic = "A.TIMEOUT".toList then some (.aTimeout, xs)
  else if mnemonic = "B.INIT".toList then some (.bInit, xs)
  else if mnemonic = "B.RX".toList then (readPacket xs).map fun r => (.bRx r.1, r.2)
  else if mnemonic = "CK.COMPUTE".toList then (readPacket xs).map fun r => (.ckCompute r.1, r.2)
  else if mnemonic = "CK.VERIFY".toList then (readPacket xs).map fun r => (.ckVerify r.1, r.2)
  else if mnemonic = "A.RXACK".toList then do
    let (b, xs) ← readInt xs
    let xs ← eat [','] xs
    let (k, xs) ← readInt xs
    let (cs, xs) ← readForced xs
    some (.aRxAck b k cs, xs)
  else if mnemonic = "B.RXDATA".toList then do
    let (s, xs) ← readInt xs
    let xs ← eat [','] xs
    let (pl, xs) ← readPayload xs
    let (cs, xs) ← readForced xs
    some (.bRxData s pl cs, xs)
  else if mnemonic = "B.RXPKT".toList then
    let (name, ys) := spanChars Char.isAlphanum (skipSpaces xs)
    (names.lookup name).map fun p => (.bRxPkt p, ys)
  else none

/-- A line ends, or a comment begins (30_encoding.md R81). -/
def atEndOfLine (xs : List Char) : Bool :=
  match skipSpaces xs with
  | [] => true
  | x :: _ => x == ';'

/-- One line of the event text. -/
def EventText.read (names : List (List Char × Packet)) (line : List Char) : Option EventText := do
  let (mnemonic, xs) := spanChars (fun x => x.isUpper || x == '.') (skipSpaces line)
  let (e, rest) ← readOperand names mnemonic xs
  if atEndOfLine rest then some e else none

/-- The event that a line of the event text stands for. -/
def assembleLine (c : Config) (names : List (List Char × Packet)) (line : List Char) : Option Instr := do
  let e ← EventText.read names line
  e.assemble c

end Sys2Proof.Machine
end

