-- ==== Sys2Proof/Safety.lean ====
section
/-! DEFINITION. The terms in which claims are stated: valid configurations, the invariants of 41_sender.md and
42_receiver.md, the channel premise CH_DETECTED, runs, fairness, and successful and drained ends of runs
(60_exceptions.md R173, R175, R179). Nothing here is part of a step. -/

namespace Sys2Proof.Machine

/-! ### Configurations -/

/-- The configuration is valid (00_scope.md R7). -/
structure ValidConfig (c : Config) : Prop where
  window_pos : 1 ≤ c.W
  seq_ratio : 2 * c.W ≤ c.S
  seq_le : c.S ≤ 2 ^ 31
  notinuse : ¬ inSeqSpace c (sint c.NOTINUSE)
  bseq : c.B_SEQ_RESET = 0 ∨ c.B_SEQ_RESET = 1
  lastack : ∀ k, c.LASTACK_RESET = some k → inSeqSpace c k
  payload_pos : 1 ≤ c.L
  rtt : c.RTT + 1 ≤ 2 ^ 32 - 1

/-! ### The sender's invariants -/

/-- The slot at position `j` of the window, the oldest at 0 (10_state.md R24). -/
def Sender.slotPos (c : Config) (a : Sender) (j : Nat) : Slot := a.slotAt (a.indexOf c j)

/-- The shape of the window: 41_sender.md R121, R122, R124, R129, the occupied slots of 10_state.md R24 and the cursor
ranges of R21. -/
structure WindowInv (c : Config) (a : Sender) : Prop where
  addressable : a.windowAddressable c
  count_le : a.count ≤ c.W
  last_eq : a.last = (a.first + a.count + (c.W - 1)) % c.W
  occupied : ∀ j < a.count, (a.slotPos c j).tag ≠ .empty
  free : ∀ j < c.W, a.count ≤ j → (a.slotPos c j).tag = .empty
  oldest : 0 < a.count → (a.slotPos c 0).tag = .inflight
  trail : a.trail = 0

/-- Sequence numbers are consecutive: 41_sender.md R123, and the ranges of `A.nextseq` and `A.lastack` in 10_state.md
R21. -/
structure SeqInv (c : Config) (a : Sender) : Prop where
  next_lt : a.nextseq < c.S
  lastack_lt : a.lastack_v = true → a.lastack < c.S
  seq : ∀ j < a.count, sint (a.slotPos c j).pkt.seqnum = (a.lo + j) % c.S
  notinuse : ∀ j < a.count, (a.slotPos c j).pkt.acknum = c.NOTINUSE
  valid : ∀ j < a.count, isCorrupted c (a.slotPos c j).pkt = false
  payload : ∀ j < a.count, (a.slotPos c j).pkt.payload.length = c.L
  next_eq : 0 < a.count → (a.nextseq : Int) = (a.lo + a.count) % c.S

/-- The sequence number of the oldest slot, or of the next packet when the window is empty. -/
def Sender.base (c : Config) (a : Sender) : Int := ((a.nextseq : Int) - a.count) % c.S

/-- How far lastACK lies ahead of the window's base, modulo `S`. -/
def Sender.ackOffset (c : Config) (a : Sender) : Int := ((a.lastack : Int) - a.base c) % c.S

/-- What the reason given in 41_sender.md R126 keeps: lastACK is the number of an ACKED slot, or lies at least `W`
positions ahead of the base, where no send reaches it before another acknowledgment is accepted. -/
def LastAckInv (c : Config) (a : Sender) : Prop :=
  a.lastack_v = true →
    (∃ j < a.count, a.ackOffset c = j ∧ (a.slotPos c j).tag = .acked) ∨ (c.W : Int) ≤ a.ackOffset c

/-- The sender's part of a state that a run can reach. -/
def SenderInv (s : State) : Prop :=
  s.a.init = true → ValidConfig s.cfg ∧ WindowInv s.cfg s.a ∧ SeqInv s.cfg s.a

/-! ### The other parts of a reachable state -/

/-- Timer consistency (41_sender.md R128), while the block has not faulted (log 16): armed exactly when packets are in
flight. Before A.INIT nothing is in flight (70_reset_and_hazards.md R194). -/
def TimerInv (s : State) : Prop :=
  s.fault.reg = 0#8 → (s.timer.armed = true ↔ s.a.init = true ∧ 0 < s.a.count)

/-- The receiver's part (42_receiver.md R147; 20_memory.md R52): the record has `S` bits, and as many payloads have been
delivered as it has 1 bits. -/
def ReceiverInv (s : State) : Prop :=
  (s.b.init = true → ValidConfig s.cfg ∧ s.b.dlv.length = s.cfg.S ∧ s.delivered.length = s.b.dlv.count true) ∧
  (s.b.init = false → s.delivered = [])

/-- The fault record's part (60_exceptions.md R163, R164; 10_state.md R29): no fault and no information, or exactly one
cause with its information. -/
def FaultInv (s : State) : Prop :=
  (s.fault.reg = 0#8 ∧ s.fault.info = none) ∨
  (∃ cause info, s.fault.reg = FaultCause.mask cause ∧ s.fault.info = some info)

/-- A packet as A builds it: 41_sender.md R111, 30_encoding.md R72. -/
structure IsDataPacket (c : Config) (p : Packet) : Prop where
  seqnum : inSeqSpace c (sint p.seqnum)
  acknum : p.acknum = c.NOTINUSE
  payload : p.payload.length = c.L
  valid : isCorrupted c p = false

/-- A packet as B builds it: 42_receiver.md R142, 30_encoding.md R72. -/
structure IsAckPacket (c : Config) (p : Packet) : Prop where
  seqnum : p.seqnum = 0#32 ∨ p.seqnum = 1#32
  acknum : inSeqSpace c (sint p.acknum)
  payload : p.payload = fill c c.ACK_FILL
  valid : isCorrupted c p = false

/-- The channel's part: what is in transit is what the block built (30_encoding.md R72). -/
def ChannelInv (s : State) : Prop :=
  (∀ p ∈ s.chanAB, IsDataPacket s.cfg p) ∧ (∀ p ∈ s.chanBA, IsAckPacket s.cfg p)

/-- Everything the spec's invariants say of a state at an event boundary, R126 apart. -/
structure Inv (s : State) : Prop where
  sender : SenderInv s
  timer : TimerInv s
  receiver : ReceiverInv s
  fault : FaultInv s
  channel : ChannelInv s

/-! ### What each event needs to complete -/

/-- The sender can run its rules: not faulted, initialised, its buffer addressable (60_exceptions.md R165; log 13). -/
structure SenderReady (s : State) : Prop where
  noFault : s.fault.reg = 0#8
  init : s.a.init = true
  addressable : s.a.windowAddressable s.cfg

/-- The receiver can run its rule: not faulted, initialised, its record addressable (60_exceptions.md R165; log 13). -/
structure ReceiverReady (s : State) : Prop where
  noFault : s.fault.reg = 0#8
  init : s.b.init = true
  addressable : s.b.recordAddressable s.cfg

/-! ### The channel premise -/

/-- CH_DETECTED for one event: a presented packet is one of the matching collection, unchanged, or is detectably
corrupted (60_exceptions.md R173; log 15). The default, CH_ANY, is no premise. -/
def chDetected (s : State) : Instr → Prop
  | .aInit => True
  | .aSend _ => True
  | .aRx q => q ∈ s.chanBA ∨ isCorrupted s.cfg q = true
  | .aTimeout => True
  | .ckCompute _ => True
  | .ckVerify _ => True
  | .bInit => True
  | .bRx q => q ∈ s.chanAB ∨ isCorrupted s.cfg q = true

/-- CH_DETECTED for the event that `s` presents next. -/
def NextDetected (s : State) : Prop :=
  ∀ t rest i, s.inbox = t :: rest → decode s.cfg t = .ok i → chDetected s i

/-- Every delivered payload is the payload of a packet that A sent (60_exceptions.md R179 says this needs
CH_DETECTED). -/
def DeliveredWasSent (s : State) : Prop := ∀ d ∈ s.delivered, ∃ p ∈ s.chanAB, p.payload = d

/-! ### Runs -/

/-- The states a host can bring the machine to under a configuration: it presents any events at any boundary
(60_exceptions.md R175, R179). -/
inductive Reachable (c : Config) : State → Prop where
  | powerOn : Reachable c (State.powerOn c)
  | present (ts : List Transaction) {s : State} : Reachable c s → Reachable c { s with inbox := ts }
  | step {s t : State} : Reachable c s → Sys2Proof.Machine.step s = .next t → Reachable c t

/-- An infinite run: at each boundary `n` the host presents the event `ev n` in state `st n` (60_exceptions.md
R179). -/
def IsRun (st : Nat → State) (ev : Nat → Transaction) : Prop :=
  ∀ n, Sys2Proof.Machine.step { st n with inbox := [ev n] } = .next (st (n + 1))

/-- Weak fairness of expiry: if `T.armed` stays 1, an A.TIMEOUT is eventually presented (60_exceptions.md R175). -/
def FairExpiry (st : Nat → State) (ev : Nat → Transaction) : Prop :=
  ∀ n, (∀ m ≥ n, (st m).timer.armed = true) → ∃ m ≥ n, ev m = encode .aTimeout

/-- Channel fairness: a packet that A transmits infinitely often is presented to B infinitely often, unchanged, and
likewise from B to A (60_exceptions.md R175). -/
def FairChannel (st : Nat → State) (ev : Nat → Transaction) : Prop :=
  ∀ p, ((∀ n, ∃ m ≥ n, ∃ r, (st (m + 1)).resp = some r ∧ .tx .a p ∈ r.out) →
      ∀ n, ∃ m ≥ n, ev m = encode (.bRx p)) ∧
    ((∀ n, ∃ m ≥ n, ∃ r, (st (m + 1)).resp = some r ∧ .tx .b p ∈ r.out) →
      ∀ n, ∃ m ≥ n, ev m = encode (.aRx p))

/-- A finite run that ends here is successful (60_exceptions.md R179). -/
def Successful (s : State) : Prop := s.fault.reg = 0#8 ∧ s.a.init = true ∧ s.b.init = true

/-- A successful run that ends here is drained (60_exceptions.md R179). -/
def Drained (s : State) : Prop := Successful s ∧ s.a.count = 0 ∧ s.timer.armed = false

end Sys2Proof.Machine
end

