-- ==== Sys2Proof/Certificates/Slice0/Obligations.lean ====
section
/-! DEFINITION. The statements for the provers, from the numbered rules of the spec. A response is written out as
⟨RES, ACC, CKV, COR, OUT⟩ (30_encoding.md R75). -/

open Sys2Proof Sys2Proof.Machine

/-! ### Encoding and stepping -/

/-- Decoding an encoded well-formed event gives it back, for every event and operand (30_encoding.md R71, R73, R77). -/
def Obligations.DecodeEncodeIsIdentity : Prop :=
  ∀ (c : Config) (i : Instr), i.wellFormed c = true → decode c (encode i) = .ok i

/-- A transaction has one meaning: what decodes to an event is that event's encoding, and the event is well formed
(30_encoding.md R70, R71, R73, R80). -/
def Obligations.EncodeDecodeIsIdentity : Prop :=
  ∀ (c : Config) (t : Transaction) (i : Instr), decode c t = .ok i → encode i = t ∧ i.wellFormed c = true

/-- Words written out from 30_encoding.md R73, R77 and the serialisation example of 95_test_vectors.md section 0 decode
to the events they stand for, under the reference instance. -/
def Obligations.WrittenWordsDecode : Prop :=
  decode Config.reference ⟨0b0000#4, []⟩ = .ok .aInit ∧
  decode Config.reference ⟨0b0001#4, List.replicate 20 0x41#8⟩ = .ok (.aSend (List.replicate 20 0x41#8)) ∧
  decode Config.reference ⟨0b0011#4, []⟩ = .ok .aTimeout ∧
  decode Config.reference ⟨0b1000#4, []⟩ = .ok .bInit ∧
  decode Config.reference
      ⟨0b1010#4, [0x00#8, 0x00#8, 0x00#8, 0x00#8, 0xFF#8, 0xFF#8, 0xFF#8, 0xFF#8] ++ List.replicate 20 0x41#8 ++
        [0x13#8, 0x05#8, 0x00#8, 0x00#8]⟩ =
    .ok (.bRx ⟨0#32, 0xFFFFFFFF#32, List.replicate 20 0x41#8, 1299#32⟩) ∧
  decode Config.reference
      ⟨0b0010#4, [0x01#8, 0x00#8, 0x00#8, 0x00#8, 0x00#8, 0x00#8, 0x00#8, 0x00#8] ++ List.replicate 20 0x30#8 ++
        [0xC1#8, 0x03#8, 0x00#8, 0x00#8]⟩ =
    .ok (.aRx ⟨1#32, 0#32, List.replicate 20 0x30#8, 961#32⟩)

/-- 30_encoding.md R79: each of the eight words outside the opcode map raises FLT_ILLEGAL_EVENT with FAULT_INFO =
{EV, 0}, whatever its operand; the other eight are in the map, so no other encoding is left. -/
def Obligations.IllegalWordsRaiseFault : Prop :=
  (∀ (s : State) (tr : Transaction) (rest : List Transaction), s.inbox = tr :: rest → s.fault.reg = 0#8 →
    tr.ev ∈ [0x9#4, 0xB#4, 0x6#4, 0x7#4, 0xC#4, 0xD#4, 0xE#4, 0xF#4] →
    Sys2Proof.Machine.step s = .next { s with
      inbox := rest
      fault := ⟨0x01#8, some ⟨tr.ev, 0#32⟩⟩
      resp := some ⟨.faulted, false, 0#32, false, []⟩ }) ∧
  (∀ ev : EventWord, ev ∉ [0x9#4, 0xB#4, 0x6#4, 0x7#4, 0xC#4, 0xD#4, 0xE#4, 0xF#4] →
    ∃ o, opOfWord ev = some o ∧ o.word = ev)

/-- A step takes the next event the host presents and runs exactly the event it decodes to; with no event it holds its
state; a transaction with an operand of the wrong length is refused (log 6, log 8). -/
def Obligations.StepRunsTheDecodedEvent : Prop :=
  (∀ (s : State) (tr : Transaction) (rest : List Transaction) (i : Instr), s.inbox = tr :: rest →
    decode s.cfg tr = .ok i → Sys2Proof.Machine.step s = exec i { s with inbox := rest }) ∧
  (∀ s : State, s.inbox = [] → Sys2Proof.Machine.step s = .next s) ∧
  (∀ (s : State) (tr : Transaction) (rest : List Transaction) (o : Op), s.inbox = tr :: rest →
    opOfWord tr.ev = some o → tr.operand.length ≠ o.format.operandBytes s.cfg →
    Sys2Proof.Machine.step s = .refused (.operandNotPresentable tr.ev))

/-! ### Faults and admission -/

/-- 60_exceptions.md R164, R165 check 1: a faulted block answers FAULTED with an empty OUT and writes no state; the host
still disarms its timer when it presents an expiry (R172; the model's reading, log 10). That ACC, CKV and COR are 0 for
A.SEND, CK.COMPUTE and CK.VERIFY is the model's choice (log 21). -/
def Obligations.FaultedBlockAnswersFaulted : Prop :=
  ∀ s : State, s.fault.reg ≠ 0#8 →
    (∀ i : Instr, i ≠ .aTimeout → exec i s = .next { s with resp := some ⟨.faulted, false, 0#32, false, []⟩ }) ∧
    (s.expiryAllowed → exec .aTimeout s = .next { s with
      timer := { s.timer with armed := false }
      resp := some ⟨.faulted, false, 0#32, false, []⟩ }) ∧
    (∀ (tr : Transaction) (rest : List Transaction), s.inbox = tr :: rest → opOfWord tr.ev = none →
      Sys2Proof.Machine.step s = .next { s with
        inbox := rest
        resp := some ⟨.faulted, false, 0#32, false, []⟩ })

/-- Once FAULT is not 0 no step changes the fault record or any state of the block, the channel or the application
(60_exceptions.md R164; 10_state.md R29). -/
def Obligations.FaultIsNeverCleared : Prop :=
  ∀ s t : State, s.fault.reg ≠ 0#8 → Sys2Proof.Machine.step s = .next t →
    t.fault = s.fault ∧ t.a = s.a ∧ t.b = s.b ∧ t.cfg = s.cfg ∧ t.timer.dur = s.timer.dur ∧
    (t.timer.armed = true → s.timer.armed = true) ∧
    t.chanAB = s.chanAB ∧ t.chanBA = s.chanBA ∧ t.delivered = s.delivered ∧ t.inbox = s.inbox.tail

/-- At most one cause is ever recorded, with its information (60_exceptions.md R163, R164): every step keeps this. -/
def Obligations.FaultRecordInvKept : Prop :=
  ∀ s t : State, FaultInv s → Sys2Proof.Machine.step s = .next t → FaultInv t

/-- 60_exceptions.md R165 check 5 and R163: an event to an endpoint before its INIT raises FLT_NOT_INIT with FAULT_INFO
= {EV, 0}, and nothing else of the block is written. That the expiry disarms the timer in an event that faults is the model's
reading of R172 (log 10), and ACC = 0 for A.SEND its choice (log 21). -/
def Obligations.EventBeforeInitRaisesNotInit : Prop :=
  ∀ s : State, s.fault.reg = 0#8 →
    (s.a.init = false →
      (∀ pay, exec (.aSend pay) s = .next { s with
        fault := ⟨0x02#8, some ⟨0x1#4, 0#32⟩⟩, resp := some ⟨.faulted, false, 0#32, false, []⟩ }) ∧
      (∀ p, exec (.aRx p) s = .next { s with
        fault := ⟨0x02#8, some ⟨0x2#4, 0#32⟩⟩, resp := some ⟨.faulted, false, 0#32, false, []⟩ }) ∧
      (s.expiryAllowed → exec .aTimeout s = .next { s with
        timer := { s.timer with armed := false }
        fault := ⟨0x02#8, some ⟨0x3#4, 0#32⟩⟩
        resp := some ⟨.faulted, false, 0#32, false, []⟩ })) ∧
    (s.b.init = false →
      ∀ p, exec (.bRx p) s = .next { s with
        fault := ⟨0x02#8, some ⟨0xA#4, 0#32⟩⟩, resp := some ⟨.faulted, false, 0#32, false, []⟩ })

/-- 70_reset_and_hazards.md R195: a second INIT of an endpoint raises FLT_REINIT. -/
def Obligations.SecondInitRaisesReinit : Prop :=
  ∀ s : State, s.fault.reg = 0#8 →
    (s.a.init = true → exec .aInit s = .next { s with
      fault := ⟨0x04#8, some ⟨0x0#4, 0#32⟩⟩, resp := some ⟨.faulted, false, 0#32, false, []⟩ }) ∧
    (s.b.init = true → exec .bInit s = .next { s with
      fault := ⟨0x04#8, some ⟨0x8#4, 0#32⟩⟩, resp := some ⟨.faulted, false, 0#32, false, []⟩ })

/-! ### Initialisation -/

/-- 70_reset_and_hazards.md R191: firstViolatedClause is 0 on a valid configuration, and otherwise the number of the
first clause that fails, in the rule's order. -/
def Obligations.FirstViolatedClauseIsFirst : Prop :=
  ∀ c : Config,
    (firstViolatedClause c = 0 ↔ ValidConfig c) ∧
    (¬ 1 ≤ c.W → firstViolatedClause c = 1) ∧
    (1 ≤ c.W → ¬ 2 * c.W ≤ c.S → firstViolatedClause c = 2) ∧
    (1 ≤ c.W → 2 * c.W ≤ c.S → ¬ c.S ≤ 2 ^ 31 → firstViolatedClause c = 3) ∧
    (1 ≤ c.W → 2 * c.W ≤ c.S → c.S ≤ 2 ^ 31 → inSeqSpace c (sint c.NOTINUSE) → firstViolatedClause c = 4) ∧
    (1 ≤ c.W → 2 * c.W ≤ c.S → c.S ≤ 2 ^ 31 → ¬ inSeqSpace c (sint c.NOTINUSE) →
      (¬ (c.B_SEQ_RESET = 0 ∨ c.B_SEQ_RESET = 1) → firstViolatedClause c = 5) ∧
      (c.B_SEQ_RESET = 0 ∨ c.B_SEQ_RESET = 1 →
        ((∃ k, c.LASTACK_RESET = some k ∧ ¬ inSeqSpace c k) → firstViolatedClause c = 6) ∧
        ((∀ k, c.LASTACK_RESET = some k → inSeqSpace c k) →
          (¬ 1 ≤ c.L → firstViolatedClause c = 7) ∧
          (1 ≤ c.L → ¬ c.RTT + 1 ≤ 2 ^ 32 - 1 → firstViolatedClause c = 8))))

/-- 70_reset_and_hazards.md R190, whole: a second A.INIT and an illegal configuration raise their faults; otherwise every
sender register takes its reset value, every tag is EMPTY, and nothing is put out. Nothing is said of the packets, which
the rule leaves unspecified. -/
def Obligations.SenderInitSetsResetValues : Prop :=
  ∀ s : State, s.fault.reg = 0#8 →
    (s.a.init = true → exec .aInit s = .next { s with
      fault := ⟨0x04#8, some ⟨0x0#4, 0#32⟩⟩, resp := some ⟨.faulted, false, 0#32, false, []⟩ }) ∧
    (s.a.init = false → firstViolatedClause s.cfg ≠ 0 → exec .aInit s = .next { s with
      fault := ⟨0x08#8, some ⟨0x0#4, BitVec.ofNat 32 (firstViolatedClause s.cfg)⟩⟩
      resp := some ⟨.faulted, false, 0#32, false, []⟩ }) ∧
    (s.a.init = false → ValidConfig s.cfg →
      ∃ buf : List Slot, buf.length = s.cfg.W ∧ (∀ sl ∈ buf, sl.tag = .empty) ∧
        exec .aInit s = .next { s with
          a :=
            { init := true
              first := 0
              last := s.cfg.W - 1
              count := 0
              nextseq := 0
              lastack_v := s.cfg.LASTACK_RESET.isSome
              lastack := (s.cfg.LASTACK_RESET.getD 0).toNat
              trail := 0
              buf := buf
              cnt_wfull := 0#32
              cnt_ackcorrupt := 0#32
              cnt_ackdup := 0#32 }
          resp := some ⟨.initDone, false, 0#32, false, []⟩ })

/-- 70_reset_and_hazards.md R192, whole: a second B.INIT and an illegal configuration raise their faults; otherwise the
record is all 0, the counter takes its reset value, and nothing is put out. -/
def Obligations.ReceiverInitSetsResetValues : Prop :=
  ∀ s : State, s.fault.reg = 0#8 →
    (s.b.init = true → exec .bInit s = .next { s with
      fault := ⟨0x04#8, some ⟨0x8#4, 0#32⟩⟩, resp := some ⟨.faulted, false, 0#32, false, []⟩ }) ∧
    (s.b.init = false → firstViolatedClause s.cfg ≠ 0 → exec .bInit s = .next { s with
      fault := ⟨0x08#8, some ⟨0x8#4, BitVec.ofNat 32 (firstViolatedClause s.cfg)⟩⟩
      resp := some ⟨.faulted, false, 0#32, false, []⟩ }) ∧
    (s.b.init = false → ValidConfig s.cfg →
      exec .bInit s = .next { s with
        b := { init := true, dlv := List.replicate s.cfg.S false, nseq := BitVec.ofNat 1 s.cfg.B_SEQ_RESET }
        resp := some ⟨.initDone, false, 0#32, false, []⟩ })

/-! ### The integrity unit -/

/-- 40_integrity.md R100 and R101: the checksum is the 32-bit sum of seqnum, acknum and the payload bytes, each taken as
BYTE_SIGN says, whatever the stored checksum; a packet is corrupted iff its stored checksum differs from it. -/
def Obligations.ChecksumIsTheSum : Prop :=
  ∀ (c : Config) (p : Packet),
    (c.BYTE_SIGN = .unsigned → (computeChecksum c p).toNat =
      (p.seqnum.toNat + p.acknum.toNat + (p.payload.map BitVec.toNat).sum) % 2 ^ 32) ∧
    (c.BYTE_SIGN = .signed → computeChecksum c p =
      word (sint p.seqnum + sint p.acknum + (p.payload.map BitVec.toInt).sum)) ∧
    (∀ v, computeChecksum c { p with checksum := v } = computeChecksum c p) ∧
    (isCorrupted c p = true ↔ p.checksum ≠ computeChecksum c p)

/-- 40_integrity.md R104: a change of exactly one field, or of one payload byte, of a valid packet is detected. -/
def Obligations.SingleFieldChangeIsDetected : Prop :=
  ∀ (c : Config) (p : Packet), isCorrupted c p = false →
    (∀ v, v ≠ p.seqnum → isCorrupted c { p with seqnum := v } = true) ∧
    (∀ v, v ≠ p.acknum → isCorrupted c { p with acknum := v } = true) ∧
    (∀ v, v ≠ p.checksum → isCorrupted c { p with checksum := v } = true) ∧
    (∀ (n : Nat) (x y : Byte), p.payload[n]? = some x → y ≠ x →
      isCorrupted c { p with payload := p.payload.set n y } = true)

/-- 40_integrity.md R105: changes that cancel modulo 2^32 are not detected, with the rule's three examples. -/
def Obligations.CancellingChangesAreUndetected : Prop :=
  ∀ (c : Config) (p : Packet), isCorrupted c p = false →
    (∀ q : Packet, q.checksum - p.checksum = computeChecksum c q - computeChecksum c p → isCorrupted c q = false) ∧
    (∀ (m n : Nat) (x y x' y' : Byte), m ≠ n → p.payload[m]? = some x → p.payload[n]? = some y →
      ext8 c x' = ext8 c x + 1#32 → ext8 c y' = ext8 c y - 1#32 →
      isCorrupted c { p with payload := (p.payload.set m x').set n y' } = false) ∧
    (∀ (m n : Nat) (x y : Byte), p.payload[m]? = some x → p.payload[n]? = some y →
      isCorrupted c { p with payload := (p.payload.set m y).set n x } = false) ∧
    (∀ d : Bits32, isCorrupted c { p with seqnum := p.seqnum + d, checksum := p.checksum + d } = false)

/-- 40_integrity.md R102: CK.COMPUTE returns the checksum and writes no state. -/
def Obligations.ComputeReturnsTheChecksum : Prop :=
  ∀ (s : State) (p : Packet), s.fault.reg = 0#8 →
    exec (.ckCompute p) s = .next { s with resp := some ⟨.ckDone, false, computeChecksum s.cfg p, false, []⟩ }

/-- 40_integrity.md R103: CK.VERIFY returns the corruption test and writes no state. -/
def Obligations.VerifyReturnsTheCorruptionTest : Prop :=
  ∀ (s : State) (p : Packet), s.fault.reg = 0#8 →
    exec (.ckVerify p) s = .next { s with resp := some ⟨.ckDone, false, 0#32, isCorrupted s.cfg p, []⟩ }

/-! ### The sender unit -/

/-- 41_sender.md R111, whole: with room in the window A.SEND builds the packet, buffers it in the next slot, transmits
it, starts the timer if it is the only one, and advances nextseq; with a full window only `A.cnt_wfull` changes. The host
adds the packet to the channel and starts the timer (60_exceptions.md R171, R173). -/
def Obligations.SendIsAcceptedIffThereIsRoom : Prop :=
  ∀ (s : State) (pay : List Byte), SenderReady s →
    (s.a.count < s.cfg.W → exec (.aSend pay) s = .next { s with
      a := { s.a with
        last := (s.a.last + 1) % s.cfg.W
        count := s.a.count + 1
        nextseq := (s.a.nextseq + 1) % s.cfg.S
        buf := s.a.buf.set ((s.a.last + 1) % s.cfg.W) ⟨.inflight, mkpkt s.cfg (word s.a.nextseq) s.cfg.NOTINUSE pay⟩ }
      timer := if s.a.count = 0 then ⟨true, s.cfg.RTT⟩ else s.timer
      chanAB := s.chanAB ++ [mkpkt s.cfg (word s.a.nextseq) s.cfg.NOTINUSE pay]
      resp := some ⟨.sendOk, true, 0#32, false,
        .tx .a (mkpkt s.cfg (word s.a.nextseq) s.cfg.NOTINUSE pay) ::
          (if s.a.count = 0 then [.tstart .a s.cfg.RTT] else [])⟩ }) ∧
    (s.cfg.W ≤ s.a.count → exec (.aSend pay) s = .next { s with
      a := { s.a with cnt_wfull := s.a.cnt_wfull + 1#32 }
      resp := some ⟨.sendFull, false, 0#32, false, []⟩ })

/-- 41_sender.md R112, R120: the three discards of A.RX, in their order, each with its counter and no other change. -/
def Obligations.AckDiscardsCountOnly : Prop :=
  ∀ (s : State) (p : Packet), SenderReady s →
    (isCorrupted s.cfg p = true → exec (.aRx p) s = .next { s with
      a := { s.a with cnt_ackcorrupt := s.a.cnt_ackcorrupt + 1#32 }
      resp := some ⟨.ackCorrupt, false, 0#32, false, []⟩ }) ∧
    (isCorrupted s.cfg p = false →
      s.a.count = 0 ∨ (s.a.lastack_v = true ∧ sint p.acknum = (s.a.lastack : Int)) →
      exec (.aRx p) s = .next { s with
        a := { s.a with cnt_ackdup := s.a.cnt_ackdup + 1#32 }
        resp := some ⟨.ackDup, false, 0#32, false, []⟩ }) ∧
    (isCorrupted s.cfg p = false → 0 < s.a.count → ¬ (s.a.lastack_v = true ∧ sint p.acknum = (s.a.lastack : Int)) →
      inRange s.cfg s.a (sint p.acknum) = false →
      exec (.aRx p) s = .next { s with
        a := { s.a with cnt_ackdup := s.a.cnt_ackdup + 1#32 }
        resp := some ⟨.ackStale, false, 0#32, false, []⟩ })

/-- 41_sender.md R112: an accepted acknowledgment of a slot that is not the oldest is recorded as lastACK and tags that
slot ACKED; nothing is put out and nothing else changes. -/
def Obligations.AckOfLaterSlotIsSelective : Prop :=
  ∀ (s : State) (p : Packet), SenderReady s → isCorrupted s.cfg p = false → 0 < s.a.count →
    ¬ (s.a.lastack_v = true ∧ sint p.acknum = (s.a.lastack : Int)) → inRange s.cfg s.a (sint p.acknum) = true →
    sint p.acknum ≠ s.a.lo →
    exec (.aRx p) s = .next { s with
      a := { s.a with
        lastack_v := true
        lastack := (sint p.acknum).toNat
        buf := s.a.buf.set ((s.a.first + ((sint p.acknum - s.a.lo) % (s.cfg.S : Int)).toNat) % s.cfg.W)
          ⟨.acked, (s.a.slotAt ((s.a.first + ((sint p.acknum - s.a.lo) % (s.cfg.S : Int)).toNat) % s.cfg.W)).pkt⟩ }
      resp := some ⟨.ackSack, false, 0#32, false, []⟩ }

/-- 41_sender.md R115, R116 with R112: the acknowledgment of the oldest slot slides the window past it and past the
contiguous ACKED slots after it; those slots become EMPTY with their packets left as they are, every other slot is
unchanged, the timer is stopped, and restarted with RTT + 1 iff packets remain. -/
def Obligations.AckOfOldestSlotSlides : Prop :=
  ∀ (s : State) (p : Packet), SenderReady s → isCorrupted s.cfg p = false → 0 < s.a.count →
    ¬ (s.a.lastack_v = true ∧ sint p.acknum = (s.a.lastack : Int)) → inRange s.cfg s.a (sint p.acknum) = true →
    sint p.acknum = s.a.lo →
    ∃ (n : Nat) (t : State), exec (.aRx p) s = .next t ∧
      1 ≤ n ∧ n ≤ s.a.count ∧
      (∀ j, 1 ≤ j → j < n → (s.a.slotPos s.cfg j).tag = .acked) ∧
      (n < s.a.count → (s.a.slotPos s.cfg n).tag ≠ .acked) ∧
      t = { s with
        a := { s.a with
          lastack_v := true
          lastack := (sint p.acknum).toNat
          first := (s.a.first + n) % s.cfg.W
          count := s.a.count - n
          trail := 0
          buf := t.a.buf }
        timer := if n < s.a.count then ⟨true, s.cfg.RTT + 1⟩ else { s.timer with armed := false }
        resp := some ⟨.ackSlide, false, 0#32, false,
          .tstop .a :: (if n < s.a.count then [.tstart .a (s.cfg.RTT + 1)] else [])⟩ } ∧
      t.a.buf.length = s.a.buf.length ∧
      (∀ j < n, (t.a.slotAt (s.a.indexOf s.cfg j)).tag = .empty) ∧
      (∀ i, (t.a.slotAt i).pkt = (s.a.slotAt i).pkt) ∧
      (∀ i, (∀ j < n, s.a.indexOf s.cfg j ≠ i) → t.a.slotAt i = s.a.slotAt i)

/-- 41_sender.md R117, R119: an expiry retransmits the oldest packet as stored and restarts the timer with RTT + 1; with
an empty window, or the oldest slot ACKED, it does nothing. Presenting it disarms the timer (60_exceptions.md R172). -/
def Obligations.TimeoutRetransmitsTheOldest : Prop :=
  ∀ s : State, SenderReady s → s.expiryAllowed →
    (0 < s.a.count → (s.a.slotAt s.a.first).tag ≠ .acked → exec .aTimeout s = .next { s with
      timer := ⟨true, s.cfg.RTT + 1⟩
      chanAB := s.chanAB ++ [(s.a.slotAt s.a.first).pkt]
      resp := some ⟨.toRetx, false, 0#32, false,
        [.tx .a (s.a.slotAt s.a.first).pkt, .tstart .a (s.cfg.RTT + 1)]⟩ }) ∧
    (s.a.count = 0 ∨ (s.a.slotAt s.a.first).tag = .acked → exec .aTimeout s = .next { s with
      timer := { s.timer with armed := false }
      resp := some ⟨.toIgnored, false, 0#32, false, []⟩ })

/-- An expiry that the host may not present is refused by name (60_exceptions.md R172; the model's stop, log 11). -/
def Obligations.UnallowedExpiryIsRefused : Prop :=
  ∀ s : State, s.timer.armed = false → s.cfg.SPURIOUS_TIMEOUT = false →
    exec .aTimeout s = .refused .expiryNotPresentable

/-- The sender's and the receiver's events stop with a named fault on an array that has not the size the spec gives it,
in states no run reaches (20_memory.md R51, R52; the model's stop, log 13). -/
def Obligations.UnaddressableArraysFault : Prop :=
  (∀ s : State, s.fault.reg = 0#8 → s.a.init = true → ¬ s.a.windowAddressable s.cfg →
    (∀ pay, exec (.aSend pay) s = .fault .windowIndex) ∧ (∀ p, exec (.aRx p) s = .fault .windowIndex) ∧
    (s.expiryAllowed → exec .aTimeout s = .fault .windowIndex)) ∧
  (∀ s : State, s.fault.reg = 0#8 → s.b.init = true → s.b.dlv.length ≠ s.cfg.S →
    ∀ p, exec (.bRx p) s = .fault .recordIndex)

/-- 41_sender.md R113: the range test, its two cases, and the rejection of numbers outside the sequence space. -/
def Obligations.RangeTestHasTwoCases : Prop :=
  ∀ (c : Config) (a : Sender) (k : Int),
    (k < 0 ∨ (c.S : Int) ≤ k → inRange c a k = false) ∧
    (0 ≤ k → k < (c.S : Int) → a.lo ≤ a.hi → (inRange c a k = true ↔ a.lo ≤ k ∧ k ≤ a.hi)) ∧
    (0 ≤ k → k < (c.S : Int) → a.hi < a.lo → (inRange c a k = true ↔ a.lo ≤ k ∨ k ≤ a.hi))

/-- 41_sender.md R125: in a state that meets the sender's invariants, a number is in range iff it is in the sequence
space and fewer than `A.count` positions ahead of the oldest. -/
def Obligations.RangeTestIsWindowMembership : Prop :=
  ∀ (c : Config) (a : Sender) (k : Int), ValidConfig c → WindowInv c a → SeqInv c a → 0 < a.count →
    (inRange c a k = true ↔ inSeqSpace c k ∧ (k - a.lo) % (c.S : Int) < (a.count : Int))

/-- 41_sender.md R114: under the invariants, sackIndex selects the one occupied slot that holds `k`, and it is not the
oldest. -/
def Obligations.SackIndexFindsTheSlot : Prop :=
  ∀ (c : Config) (a : Sender) (k : Int), ValidConfig c → WindowInv c a → SeqInv c a → 0 < a.count →
    inRange c a k = true → k ≠ a.lo →
    ∃ j, 1 ≤ j ∧ j < a.count ∧ sackIndex c a k = a.indexOf c j ∧ sint (a.slotPos c j).pkt.seqnum = k ∧
      ∀ i < a.count, sint (a.slotPos c i).pkt.seqnum = k → i = j

/-- 41_sender.md R127: an acknowledgment of a number that is not in the window, so one the window has slid past and that
has not been sent again, is discarded as duplicate or stale and never slides the window. -/
def Obligations.SlidPastNumberNeverSlides : Prop :=
  ∀ (s : State) (p : Packet) (d : Nat), SenderReady s → SenderInv s → isCorrupted s.cfg p = false →
    1 ≤ d → d + s.a.count ≤ s.cfg.S → sint p.acknum = (s.a.base s.cfg - d) % (s.cfg.S : Int) →
    ∃ r, (r = .ackDup ∨ r = .ackStale) ∧ exec (.aRx p) s = .next { s with
      a := { s.a with cnt_ackdup := s.a.cnt_ackdup + 1#32 }
      resp := some ⟨r, false, 0#32, false, []⟩ }

/-- 41_sender.md R132: with the `r` slots after the oldest ACKED and the next one, if any, not, the acknowledgment of the
oldest slides the window by `r + 1` in one event. -/
def Obligations.SlideConsolidatesAckedSlots : Prop :=
  ∀ (s : State) (p : Packet) (r : Nat), SenderReady s → SenderInv s → isCorrupted s.cfg p = false → r < s.a.count →
    ¬ (s.a.lastack_v = true ∧ sint p.acknum = (s.a.lastack : Int)) → sint p.acknum = s.a.lo →
    (∀ j, 1 ≤ j → j ≤ r → (s.a.slotPos s.cfg j).tag = .acked) →
    (r + 1 < s.a.count → (s.a.slotPos s.cfg (r + 1)).tag ≠ .acked) →
    ∃ t : State, exec (.aRx p) s = .next t ∧ t.a.count = s.a.count - (r + 1) ∧
      t.a.first = (s.a.first + (r + 1)) % s.cfg.W ∧ t.a.last = s.a.last ∧ t.a.nextseq = s.a.nextseq

/-- 41_sender.md R118: the sender reads only acknum and the integrity verdict of an acknowledgment. -/
def Obligations.AckSeqnumAndPayloadAreIgnored : Prop :=
  ∀ (s : State) (p q : Packet), p.acknum = q.acknum → isCorrupted s.cfg p = isCorrupted s.cfg q →
    exec (.aRx p) s = exec (.aRx q) s

/-- 41_sender.md R131, R119, R110: whatever event runs, a packet handed to the channel from A is the new packet of an
accepted A.SEND, which is handed over exactly once in that event, or the oldest buffered packet on A.TIMEOUT, unchanged. -/
def Obligations.TransmissionsComeFromSendAndTimeout : Prop :=
  ∀ (i : Instr) (s t : State) (r : Response), exec i s = .next t → t.resp = some r →
    (∀ p, .tx .a p ∈ r.out →
      (∃ pay, i = .aSend pay ∧ p = mkpkt s.cfg (word s.a.nextseq) s.cfg.NOTINUSE pay ∧ sentBy .a r.out = [p]) ∨
      (i = .aTimeout ∧ p = (s.a.slotAt s.a.first).pkt ∧ sentBy .a r.out = [p])) ∧
    (r.res = .sendOk → ∃ p, sentBy .a r.out = [p])

/-! ### The receiver unit -/

/-- 42_receiver.md R141, R142, whole: corrupted packets are dropped; a sequence number outside the space raises
FLT_RX_SEQ_RANGE; a fresh one is recorded, delivered and acknowledged; a duplicate is only acknowledged; the counter
toggles after each acknowledgment. -/
def Obligations.ReceiveDeliversAndAcknowledges : Prop :=
  ∀ (s : State) (p : Packet), ReceiverReady s →
    (isCorrupted s.cfg p = true → exec (.bRx p) s = .next { s with
      resp := some ⟨.rxCorrupt, false, 0#32, false, []⟩ }) ∧
    (isCorrupted s.cfg p = false → sint p.seqnum < 0 ∨ (s.cfg.S : Int) ≤ sint p.seqnum →
      exec (.bRx p) s = .next { s with
        fault := ⟨0x10#8, some ⟨0xA#4, p.seqnum⟩⟩
        resp := some ⟨.faulted, false, 0#32, false, []⟩ }) ∧
    (isCorrupted s.cfg p = false → 0 ≤ sint p.seqnum → sint p.seqnum < (s.cfg.S : Int) →
      s.b.dlv[(sint p.seqnum).toNat]? = some false →
      exec (.bRx p) s = .next { s with
        b := { s.b with dlv := s.b.dlv.set (sint p.seqnum).toNat true, nseq := 1#1 - s.b.nseq }
        chanBA := s.chanBA ++
          [mkpkt s.cfg (s.b.nseq.zeroExtend 32) p.seqnum (List.replicate s.cfg.L s.cfg.ACK_FILL)]
        delivered := s.delivered ++ [p.payload]
        resp := some ⟨.rxNew, false, 0#32, false, [.deliver .b p.payload,
          .tx .b (mkpkt s.cfg (s.b.nseq.zeroExtend 32) p.seqnum (List.replicate s.cfg.L s.cfg.ACK_FILL))]⟩ }) ∧
    (isCorrupted s.cfg p = false → 0 ≤ sint p.seqnum → sint p.seqnum < (s.cfg.S : Int) →
      s.b.dlv[(sint p.seqnum).toNat]? = some true →
      exec (.bRx p) s = .next { s with
        b := { s.b with nseq := 1#1 - s.b.nseq }
        chanBA := s.chanBA ++
          [mkpkt s.cfg (s.b.nseq.zeroExtend 32) p.seqnum (List.replicate s.cfg.L s.cfg.ACK_FILL)]
        resp := some ⟨.rxDup, false, 0#32, false,
          [.tx .b (mkpkt s.cfg (s.b.nseq.zeroExtend 32) p.seqnum (List.replicate s.cfg.L s.cfg.ACK_FILL))]⟩ })

/-- 42_receiver.md R146: of a data packet the receiver reads only seqnum, payload and the integrity verdict. -/
def Obligations.DataAcknumIsIgnored : Prop :=
  ∀ (s : State) (p q : Packet), p.seqnum = q.seqnum → p.payload = q.payload →
    isCorrupted s.cfg p = isCorrupted s.cfg q → exec (.bRx p) s = exec (.bRx q) s

/-- 20_memory.md R52, 42_receiver.md R147: no step clears a bit of the delivery record once B is initialised, and a step
delivers a payload exactly when it sets a bit, one of each. -/
def Obligations.DeliveryRecordOnlyGrows : Prop :=
  ∀ s t : State, s.b.init = true → Sys2Proof.Machine.step s = .next t →
    (∀ q, s.b.hasDelivered q = true → t.b.hasDelivered q = true) ∧
    (t.delivered = s.delivered ∧ t.b.dlv = s.b.dlv ∨
      ∃ (q : Nat) (d : List Byte), t.delivered = s.delivered ++ [d] ∧ s.b.hasDelivered q = false ∧
        t.b.hasDelivered q = true ∧ ∀ q', q' ≠ q → t.b.hasDelivered q' = s.b.hasDelivered q')

/-- 42_receiver.md R147: the number of acknowledgments equals the number of B.RX events that were neither corrupted nor
faulted; step by step, B hands the channel one packet in those and none in any other event. -/
def Obligations.OneAcknowledgmentPerValidPacket : Prop :=
  ∀ (i : Instr) (s t : State), exec i s = .next t →
    (∃ (p q : Packet) (r : Response), i = .bRx p ∧ isCorrupted s.cfg p = false ∧ t.fault.reg = 0#8 ∧
      t.resp = some r ∧ (r.res = .rxNew ∨ r.res = .rxDup) ∧ q.acknum = p.seqnum ∧ t.chanBA = s.chanBA ++ [q]) ∨
    (t.chanBA = s.chanBA ∧ ∀ p, i = .bRx p → isCorrupted s.cfg p = true ∨ t.fault.reg ≠ 0#8)

/-- 42_receiver.md R144, R147: every step keeps that B has delivered as many payloads as its record has 1 bits. -/
def Obligations.ReceiverInvKept : Prop :=
  ∀ s t : State, ReceiverInv s → Sys2Proof.Machine.step s = .next t → ReceiverInv t

/-- 42_receiver.md R144: at most `S` payloads are delivered in a session, whatever the host presents. -/
def Obligations.AtMostSPayloadsDelivered : Prop :=
  ∀ (c : Config) (s : State), Reachable c s → s.delivered.length ≤ c.S

/-! ### Responses and the whole machine -/

/-- 30_encoding.md R75: every event leaves a response; ACC is 1 exactly for an accepted A.SEND; CKV is the computed checksum
for CK.COMPUTE and 0 for every other event; COR is the corruption test for CK.VERIFY and 0 for every other event. ACC = 0
in a FAULTED A.SEND is the model's choice (log 21), and nothing is said of CKV and COR in a FAULTED response of their own
events. -/
def Obligations.ResponseFieldsBelongToTheirEvents : Prop :=
  ∀ (i : Instr) (s t : State), exec i s = .next t → ∃ r, t.resp = some r ∧
    (r.acc = true ↔ r.res = .sendOk) ∧ (r.acc = true → ∃ pay, i = .aSend pay) ∧
    (r.ckv ≠ 0#32 → ∃ p, i = .ckCompute p) ∧ (r.cor = true → ∃ p, i = .ckVerify p) ∧
    (∀ p, i = .ckCompute p → r.res ≠ .faulted → r.ckv = computeChecksum s.cfg p) ∧
    (∀ p, i = .ckVerify p → r.res ≠ .faulted → r.cor = isCorrupted s.cfg p)

/-- 30_encoding.md R76: which event produces which result code. -/
def Obligations.ResultCodesBelongToTheirEvents : Prop :=
  ∀ (i : Instr) (s t : State) (r : Response), exec i s = .next t → t.resp = some r → r.res ≠ .faulted →
    (r.res = .initDone → i = .aInit ∨ i = .bInit) ∧
    (r.res = .sendOk ∨ r.res = .sendFull → ∃ pay, i = .aSend pay) ∧
    (r.res = .ackCorrupt ∨ r.res = .ackDup ∨ r.res = .ackStale ∨ r.res = .ackSack ∨ r.res = .ackSlide →
      ∃ p, i = .aRx p) ∧
    (r.res = .toRetx ∨ r.res = .toIgnored → i = .aTimeout) ∧
    (r.res = .rxCorrupt ∨ r.res = .rxNew ∨ r.res = .rxDup → ∃ p, i = .bRx p) ∧
    (r.res = .ckDone → (∃ p, i = .ckCompute p) ∨ (∃ p, i = .ckVerify p))

/-- 41_sender.md R110: the sender's events put out only TX, TSTART and TSTOP of EP_A; the receiver's only DELIVER and TX
of EP_B; the integrity events nothing (42_receiver.md R141; 40_integrity.md R102, R103). -/
def Obligations.OutputsBelongToTheirUnit : Prop :=
  ∀ (i : Instr) (s t : State) (r : Response), exec i s = .next t → t.resp = some r → ∀ x ∈ r.out,
    (∃ p, x = .tx .a p ∧ ((∃ pay, i = .aSend pay) ∨ i = .aTimeout)) ∨
    (∃ d, x = .tstart .a d ∧ ((∃ pay, i = .aSend pay) ∨ (∃ p, i = .aRx p) ∨ i = .aTimeout)) ∨
    (x = .tstop .a ∧ ∃ p, i = .aRx p) ∨
    (∃ d p, x = .deliver .b d ∧ i = .bRx p) ∨
    (∃ q p, x = .tx .b q ∧ i = .bRx p)

/-- 20_memory.md R57, 60_exceptions.md R170: the endpoints share no state. The sender's events neither change nor read
the receiver, the receiver's events neither change nor read the sender and its timer, and the integrity events change
neither. -/
def Obligations.EndpointsShareNoState : Prop :=
  (∀ (i : Instr) (s t : State), (i = .aInit ∨ (∃ pay, i = .aSend pay) ∨ (∃ p, i = .aRx p) ∨ i = .aTimeout) →
    exec i s = .next t →
    t.b = s.b ∧ t.chanBA = s.chanBA ∧ t.delivered = s.delivered ∧
      ∀ b : Receiver, exec i { s with b := b } = .next { t with b := b }) ∧
  (∀ (i : Instr) (s t : State), (i = .bInit ∨ ∃ p, i = .bRx p) → exec i s = .next t →
    t.a = s.a ∧ t.timer = s.timer ∧ t.chanAB = s.chanAB ∧
      ∀ (a : Sender) (tm : Timer), exec i { s with a := a, timer := tm } = .next { t with a := a, timer := tm }) ∧
  (∀ (i : Instr) (s t : State), ((∃ p, i = .ckCompute p) ∨ ∃ p, i = .ckVerify p) → exec i s = .next t →
    ∃ r, t = { s with resp := some r })

/-- 10_state.md R28, R33: no step writes the configuration, and no step clears an initialisation flag; a step sets one
only by its INIT. -/
def Obligations.ConfigurationAndInitFlagsPersist : Prop :=
  ∀ (i : Instr) (s t : State), exec i s = .next t →
    t.cfg = s.cfg ∧ (s.a.init = true → t.a.init = true) ∧ (s.b.init = true → t.b.init = true) ∧
    (s.a.init = false → t.a.init = true → i = .aInit) ∧ (s.b.init = false → t.b.init = true → i = .bInit)

/-- 10_state.md R26: a counter changes only by its reset in A.INIT or by one, modulo 2^32, in the events the table
names, with the result codes those events give. -/
def Obligations.CountersChangeOnlyByTheirEvents : Prop :=
  ∀ (i : Instr) (s t : State), exec i s = .next t → i ≠ .aInit →
    (t.a.cnt_wfull = s.a.cnt_wfull ∨ t.a.cnt_wfull = s.a.cnt_wfull + 1#32) ∧
    (t.a.cnt_ackcorrupt = s.a.cnt_ackcorrupt ∨ t.a.cnt_ackcorrupt = s.a.cnt_ackcorrupt + 1#32) ∧
    (t.a.cnt_ackdup = s.a.cnt_ackdup ∨ t.a.cnt_ackdup = s.a.cnt_ackdup + 1#32) ∧
    (t.a.cnt_wfull ≠ s.a.cnt_wfull ↔ ∃ r, t.resp = some r ∧ r.res = .sendFull) ∧
    (t.a.cnt_ackcorrupt ≠ s.a.cnt_ackcorrupt ↔ ∃ r, t.resp = some r ∧ r.res = .ackCorrupt) ∧
    (t.a.cnt_ackdup ≠ s.a.cnt_ackdup ↔ ∃ r, t.resp = some r ∧ (r.res = .ackDup ∨ r.res = .ackStale))

/-- 10_state.md R21, 70_reset_and_hazards.md R205: lastACK changes only in an accepted acknowledgment, to the number that
acknowledgment carries, so a duplicate of it is discarded until another is accepted. -/
def Obligations.LastAckChangesOnlyWhenAccepted : Prop :=
  ∀ (i : Instr) (s t : State), exec i s = .next t → i ≠ .aInit →
    (t.a.lastack_v = s.a.lastack_v ∧ t.a.lastack = s.a.lastack ∧
      (∀ r, t.resp = some r → r.res ≠ .ackSack ∧ r.res ≠ .ackSlide)) ∨
    (∃ (p : Packet) (r : Response), i = .aRx p ∧ t.resp = some r ∧ (r.res = .ackSack ∨ r.res = .ackSlide) ∧
      t.a.lastack_v = true ∧ (t.a.lastack : Int) = sint p.acknum ∧
      ¬ (s.a.lastack_v = true ∧ sint p.acknum = (s.a.lastack : Int)))

/-! ### Invariants -/

/-- 70_reset_and_hazards.md R193, 10_state.md R28 to R30: the first state of a run, under every configuration. That the state
after reset is that state under the reference instance is the model's choice (log 2, log 3). -/
def Obligations.RunsStartUninitialised : Prop :=
  State.reset = State.powerOn Config.reference ∧
  ∀ c : Config, (State.powerOn c).cfg = c ∧ (State.powerOn c).a.init = false ∧ (State.powerOn c).b.init = false ∧
    (State.powerOn c).fault = ⟨0#8, none⟩ ∧ (State.powerOn c).timer = ⟨false, 0⟩

/-- The invariants hold at the start of every run. -/
def Obligations.RunsStartInvariant : Prop := Inv State.reset ∧ ∀ c : Config, Inv (State.powerOn c)

/-- 41_sender.md R121 to R124, R129: every step keeps the shape of the window and its consecutive sequence numbers,
whatever packets the host presents. -/
def Obligations.SenderInvKept : Prop :=
  ∀ s t : State, SenderInv s → Sys2Proof.Machine.step s = .next t → SenderInv t

/-- 41_sender.md R128: every step keeps that, while the block has not faulted, the timer is armed exactly when packets
are in flight (log 16). -/
def Obligations.TimerInvKept : Prop :=
  ∀ s t : State, SenderInv s → TimerInv s → Sys2Proof.Machine.step s = .next t → TimerInv t

/-- 30_encoding.md R72: every packet the block has built carries fields in the ranges of the table, and a valid
checksum. -/
def Obligations.ChannelInvKept : Prop :=
  ∀ s t : State, SenderInv s → ChannelInv s → Sys2Proof.Machine.step s = .next t → ChannelInv t

/-- 41_sender.md R126: with LASTACK_RESET = NONE every step keeps that lastACK is an ACKED slot's number or lies at least
`W` positions ahead of the window's base. -/
def Obligations.LastAckInvKept : Prop :=
  ∀ s t : State, s.cfg.LASTACK_RESET = none → SenderInv s → (s.a.init = true → LastAckInv s.cfg s.a) →
    Sys2Proof.Machine.step s = .next t → t.a.init = true → LastAckInv t.cfg t.a

/-- Every state that a host can bring the machine to meets the invariants of 41_sender.md R121 to R124, R128, R129,
42_receiver.md R147 and 60_exceptions.md R164. -/
def Obligations.ReachableStatesAreInvariant : Prop :=
  ∀ (c : Config) (s : State), Reachable c s → Inv s

/-- 41_sender.md R126: with LASTACK_RESET = NONE, no INFLIGHT occupied slot of a reachable state holds the number
lastACK, so the lastACK test never discards the acknowledgment of an outstanding packet. -/
def Obligations.LastAckIsNeverInFlight : Prop :=
  ∀ (c : Config) (s : State), c.LASTACK_RESET = none → Reachable c s → s.a.init = true → s.a.lastack_v = true →
    ∀ j < s.a.count, (s.a.slotPos c j).tag = .inflight → sint (s.a.slotPos c j).pkt.seqnum ≠ (s.a.lastack : Int)

/-- 60_exceptions.md R160: no step from an invariant state stops with a fault; the step answers a next state unless the
host presents what it may not (log 8, log 11). -/
def Obligations.InvariantStatesNeverStop : Prop :=
  ∀ s : State, SenderInv s → ReceiverInv s →
    (∀ (tr : Transaction) (rest : List Transaction), s.inbox = tr :: rest →
      (∀ ev, decode s.cfg tr ≠ .error (.operandShape ev)) ∧
      (decode s.cfg tr = .ok .aTimeout → s.expiryAllowed)) →
    ∃ t, Sys2Proof.Machine.step s = .next t

/-! ### The channel premise, and runs -/

/-- Under CH_DETECTED the range fault is unreachable: a presented packet is one that A sent or is detectably corrupted, so
B.RX raises no fault (60_exceptions.md R162, R173). -/
def Obligations.DetectedChannelNeverFaultsReceiver : Prop :=
  ∀ (s : State) (p : Packet), ReceiverReady s → ChannelInv s → chDetected s (.bRx p) →
    ∃ t, exec (.bRx p) s = .next t ∧ t.fault = s.fault

/-- Under CH_DETECTED every step keeps that each payload delivered to the application is one that A sent
(60_exceptions.md R173, R179). -/
def Obligations.DeliveredPayloadsWereSent : Prop :=
  ∀ s t : State, NextDetected s → DeliveredWasSent s → Sys2Proof.Machine.step s = .next t → DeliveredWasSent t

/-- 41_sender.md R130 with the premise of 60_exceptions.md R175: in an infinite run that does not fault and whose window
never empties from some point on, with weak fairness of expiry the oldest packet is retransmitted again and again. -/
def Obligations.RetransmissionIsUnbounded : Prop :=
  ∀ (c : Config) (st : Nat → State) (ev : Nat → Transaction) (n : Nat), Reachable c (st 0) → IsRun st ev →
    FairExpiry st ev → (∀ m, (st m).fault.reg = 0#8) →
    (∀ m ≥ n, (st m).a.init = true ∧ 0 < (st m).a.count) →
    ∀ k, ∃ m ≥ k, ∃ r, (st (m + 1)).resp = some r ∧ r.res = .toRetx ∧
      .tx .a ((st m).a.slotAt (st m).a.first).pkt ∈ r.out

/-- 60_exceptions.md R175: with both fairness premises, in an infinite run that does not fault, a packet in flight is
eventually acknowledged: the window slides, whatever else the host presents (LASTACK_RESET = NONE, 41_sender.md R126). -/
def Obligations.OldestIsEventuallyAcknowledged : Prop :=
  ∀ (c : Config) (st : Nat → State) (ev : Nat → Transaction) (n : Nat), c.LASTACK_RESET = none →
    Reachable c (st 0) → IsRun st ev → FairExpiry st ev → FairChannel st ev → (∀ m, (st m).fault.reg = 0#8) →
    (st n).a.init = true → (st n).b.init = true → 0 < (st n).a.count →
    ∃ m ≥ n, ∃ r, (st (m + 1)).resp = some r ∧ r.res = .ackSlide

/-- 60_exceptions.md R179 with 41_sender.md R122, R128: a successful run that ends with an empty window is drained, and a
drained sender holds only EMPTY slots. -/
def Obligations.SuccessfulRunIsDrainedIffWindowIsEmpty : Prop :=
  ∀ (c : Config) (s : State), Reachable c s → Successful s →
    (Drained s ↔ s.a.count = 0) ∧
    (Drained s → ∀ i < c.W, (s.a.slotAt i).tag = .empty)

/-! ### The event text -/

/-- 30_encoding.md R82, with the fixed payload length of R81: each pseudo-event stands for exactly the one event the
table gives. -/
def Obligations.PseudoEventsExpandToOneEvent : Prop :=
  (∀ (c : Config) (x : PayloadText) (bs : List Byte), x.value c = some bs → bs.length = c.L) ∧
  (∀ (c : Config) (b k : IntText) (bw kw : Bits32), b.value = some bw → k.value = some kw →
    (EventText.aRxAck b k none).assemble c = some (.aRx (mkpkt c bw kw (List.replicate c.L c.ACK_FILL))) ∧
    ∀ (x : IntText) (xw : Bits32), x.value = some xw →
      (EventText.aRxAck b k (some x)).assemble c = some (.aRx ⟨bw, kw, List.replicate c.L c.ACK_FILL, xw⟩)) ∧
  (∀ (c : Config) (q : IntText) (qw : Bits32) (pl : PayloadText) (bs : List Byte), q.value = some qw →
    pl.value c = some bs →
    (EventText.bRxData q pl none).assemble c = some (.bRx (mkpkt c qw c.NOTINUSE bs)) ∧
    ∀ (x : IntText) (xw : Bits32), x.value = some xw →
      (EventText.bRxData q pl (some x)).assemble c = some (.bRx ⟨qw, c.NOTINUSE, bs, xw⟩)) ∧
  (∀ (c : Config) (p : Packet), (EventText.bRxPkt p).assemble c = some (.bRx p))
end

