-- ==== Sys2Proof/Laws/Codec.lean ====
section
/-! SUPPORT. The reference bus: bytes and numbers, fields, packets (30_encoding.md R73). -/

namespace Sys2Proof

@[simp] theorem bytesOfNat_length : ∀ n v, (bytesOfNat n v).length = n
  | 0, _ => rfl
  | n + 1, v => by simp [bytesOfNat, bytesOfNat_length n]

theorem natOfBytes_lt : ∀ bs : List Byte, natOfBytes bs < 256 ^ bs.length
  | [] => by simp [natOfBytes]
  | b :: bs => by
    have h := natOfBytes_lt bs
    have hb := b.isLt
    simp only [natOfBytes, List.length_cons, pow_succ]
    omega

theorem natOfBytes_bytesOfNat : ∀ n v, natOfBytes (bytesOfNat n v) = v % 256 ^ n
  | 0, v => by simp [bytesOfNat, natOfBytes, Nat.mod_one]
  | n + 1, v => by
    rw [bytesOfNat, natOfBytes, natOfBytes_bytesOfNat n, pow_succ, mul_comm (256 ^ n) 256, Nat.mod_mul]
    simp

theorem bytesOfNat_natOfBytes : ∀ bs : List Byte, bytesOfNat bs.length (natOfBytes bs) = bs
  | [] => rfl
  | b :: bs => by
    have hb := b.isLt
    have h1 : (b.toNat + 256 * natOfBytes bs) / 256 = natOfBytes bs := by omega
    have h2 : BitVec.ofNat 8 (b.toNat + 256 * natOfBytes bs) = b := by
      apply BitVec.eq_of_toNat_eq
      simp only [BitVec.toNat_ofNat]
      omega
    simp only [List.length_cons, bytesOfNat, natOfBytes, h1, h2, bytesOfNat_natOfBytes bs]

@[simp] theorem bytesOfField_length (x : Bits32) : (bytesOfField x).length = 4 := bytesOfNat_length 4 _

@[simp] theorem fieldOfBytes_bytesOfField (x : Bits32) : fieldOfBytes (bytesOfField x) = x := by
  unfold fieldOfBytes bytesOfField
  rw [natOfBytes_bytesOfNat]
  apply BitVec.eq_of_toNat_eq
  have := x.isLt
  simp only [BitVec.toNat_ofNat]
  omega

theorem bytesOfField_fieldOfBytes {bs : List Byte} (h : bs.length = 4) : bytesOfField (fieldOfBytes bs) = bs := by
  have hlt := natOfBytes_lt bs
  have : (fieldOfBytes bs).toNat = natOfBytes bs := by
    simp only [fieldOfBytes, BitVec.toNat_ofNat]
    rw [h] at hlt
    omega
  rw [bytesOfField, this, ← h, bytesOfNat_natOfBytes]

@[simp] theorem bytesOfPacket_length (p : Packet) : (bytesOfPacket p).length = 12 + p.payload.length := by
  simp [bytesOfPacket]; omega

/-- Every event word of the opcode map selects its own operation. -/
@[simp] theorem opOfWord_word (o : Op) : opOfWord o.word = some o := by cases o <;> rfl

end Sys2Proof
end

