-- ==== Sys2Proof/Laws/State.lean ====
section
/-! SUPPORT. One lemma per field per update of State, Sender, Receiver and Timer, true by rfl, so that no proof unfolds a
record update. -/

namespace Sys2Proof.Machine

section publish
variable (s : State) (r : Response)

@[simp] theorem publish_cfg : (s.publish r).cfg = s.cfg := rfl
@[simp] theorem publish_a : (s.publish r).a = s.a := rfl
@[simp] theorem publish_b : (s.publish r).b = s.b := rfl
@[simp] theorem publish_fault : (s.publish r).fault = s.fault := rfl
@[simp] theorem publish_timer : (s.publish r).timer = applyTimers s.timer r.out := rfl
@[simp] theorem publish_chanAB : (s.publish r).chanAB = s.chanAB ++ sentBy .a r.out := rfl
@[simp] theorem publish_chanBA : (s.publish r).chanBA = s.chanBA ++ sentBy .b r.out := rfl
@[simp] theorem publish_delivered : (s.publish r).delivered = s.delivered ++ deliveredBy r.out := rfl
@[simp] theorem publish_inbox : (s.publish r).inbox = s.inbox := rfl
@[simp] theorem publish_resp : (s.publish r).resp = some r := rfl

end publish

section disarm
variable (s : State)

@[simp] theorem disarm_cfg : s.disarm.cfg = s.cfg := rfl
@[simp] theorem disarm_a : s.disarm.a = s.a := rfl
@[simp] theorem disarm_b : s.disarm.b = s.b := rfl
@[simp] theorem disarm_fault : s.disarm.fault = s.fault := rfl
@[simp] theorem disarm_armed : s.disarm.timer.armed = false := rfl
@[simp] theorem disarm_dur : s.disarm.timer.dur = s.timer.dur := rfl
@[simp] theorem disarm_chanAB : s.disarm.chanAB = s.chanAB := rfl
@[simp] theorem disarm_chanBA : s.disarm.chanBA = s.chanBA := rfl
@[simp] theorem disarm_delivered : s.disarm.delivered = s.delivered := rfl
@[simp] theorem disarm_inbox : s.disarm.inbox = s.inbox := rfl
@[simp] theorem disarm_resp : s.disarm.resp = s.resp := rfl

end disarm

section sender
variable (a : Sender) (i : Nat) (sl : Slot) (t : SlotTag) (k : Int)

@[simp] theorem setSlot_init : (a.setSlot i sl).init = a.init := rfl
@[simp] theorem setSlot_first : (a.setSlot i sl).first = a.first := rfl
@[simp] theorem setSlot_last : (a.setSlot i sl).last = a.last := rfl
@[simp] theorem setSlot_count : (a.setSlot i sl).count = a.count := rfl
@[simp] theorem setSlot_nextseq : (a.setSlot i sl).nextseq = a.nextseq := rfl
@[simp] theorem setSlot_lastack_v : (a.setSlot i sl).lastack_v = a.lastack_v := rfl
@[simp] theorem setSlot_lastack : (a.setSlot i sl).lastack = a.lastack := rfl
@[simp] theorem setSlot_trail : (a.setSlot i sl).trail = a.trail := rfl
@[simp] theorem setSlot_buf : (a.setSlot i sl).buf = a.buf.set i sl := rfl
@[simp] theorem setSlot_cnt_wfull : (a.setSlot i sl).cnt_wfull = a.cnt_wfull := rfl
@[simp] theorem setSlot_cnt_ackcorrupt : (a.setSlot i sl).cnt_ackcorrupt = a.cnt_ackcorrupt := rfl
@[simp] theorem setSlot_cnt_ackdup : (a.setSlot i sl).cnt_ackdup = a.cnt_ackdup := rfl

@[simp] theorem setTag_init : (a.setTag i t).init = a.init := rfl
@[simp] theorem setTag_first : (a.setTag i t).first = a.first := rfl
@[simp] theorem setTag_last : (a.setTag i t).last = a.last := rfl
@[simp] theorem setTag_count : (a.setTag i t).count = a.count := rfl
@[simp] theorem setTag_nextseq : (a.setTag i t).nextseq = a.nextseq := rfl
@[simp] theorem setTag_lastack_v : (a.setTag i t).lastack_v = a.lastack_v := rfl
@[simp] theorem setTag_lastack : (a.setTag i t).lastack = a.lastack := rfl
@[simp] theorem setTag_trail : (a.setTag i t).trail = a.trail := rfl
@[simp] theorem setTag_buf : (a.setTag i t).buf = a.buf.set i ⟨t, (a.slotAt i).pkt⟩ := rfl
@[simp] theorem setTag_cnt_wfull : (a.setTag i t).cnt_wfull = a.cnt_wfull := rfl
@[simp] theorem setTag_cnt_ackcorrupt : (a.setTag i t).cnt_ackcorrupt = a.cnt_ackcorrupt := rfl
@[simp] theorem setTag_cnt_ackdup : (a.setTag i t).cnt_ackdup = a.cnt_ackdup := rfl

@[simp] theorem acceptAck_init : (a.acceptAck k).init = a.init := rfl
@[simp] theorem acceptAck_first : (a.acceptAck k).first = a.first := rfl
@[simp] theorem acceptAck_last : (a.acceptAck k).last = a.last := rfl
@[simp] theorem acceptAck_count : (a.acceptAck k).count = a.count := rfl
@[simp] theorem acceptAck_nextseq : (a.acceptAck k).nextseq = a.nextseq := rfl
@[simp] theorem acceptAck_lastack_v : (a.acceptAck k).lastack_v = true := rfl
@[simp] theorem acceptAck_lastack : (a.acceptAck k).lastack = k.toNat := rfl
@[simp] theorem acceptAck_trail : (a.acceptAck k).trail = a.trail := rfl
@[simp] theorem acceptAck_buf : (a.acceptAck k).buf = a.buf := rfl
@[simp] theorem acceptAck_cnt_wfull : (a.acceptAck k).cnt_wfull = a.cnt_wfull := rfl
@[simp] theorem acceptAck_cnt_ackcorrupt : (a.acceptAck k).cnt_ackcorrupt = a.cnt_ackcorrupt := rfl
@[simp] theorem acceptAck_cnt_ackdup : (a.acceptAck k).cnt_ackdup = a.cnt_ackdup := rfl
@[simp] theorem acceptAck_slotAt : (a.acceptAck k).slotAt i = a.slotAt i := rfl
@[simp] theorem acceptAck_lo : (a.acceptAck k).lo = a.lo := rfl
@[simp] theorem acceptAck_hi : (a.acceptAck k).hi = a.hi := rfl
@[simp] theorem acceptAck_indexOf (c : Config) : (a.acceptAck k).indexOf c i = a.indexOf c i := rfl

@[simp] theorem countFull_init : a.countFull.init = a.init := rfl
@[simp] theorem countFull_first : a.countFull.first = a.first := rfl
@[simp] theorem countFull_last : a.countFull.last = a.last := rfl
@[simp] theorem countFull_count : a.countFull.count = a.count := rfl
@[simp] theorem countFull_nextseq : a.countFull.nextseq = a.nextseq := rfl
@[simp] theorem countFull_lastack_v : a.countFull.lastack_v = a.lastack_v := rfl
@[simp] theorem countFull_lastack : a.countFull.lastack = a.lastack := rfl
@[simp] theorem countFull_trail : a.countFull.trail = a.trail := rfl
@[simp] theorem countFull_buf : a.countFull.buf = a.buf := rfl
@[simp] theorem countFull_cnt_wfull : a.countFull.cnt_wfull = a.cnt_wfull + 1#32 := rfl
@[simp] theorem countFull_cnt_ackcorrupt : a.countFull.cnt_ackcorrupt = a.cnt_ackcorrupt := rfl
@[simp] theorem countFull_cnt_ackdup : a.countFull.cnt_ackdup = a.cnt_ackdup := rfl

@[simp] theorem countCorrupt_init : a.countCorrupt.init = a.init := rfl
@[simp] theorem countCorrupt_first : a.countCorrupt.first = a.first := rfl
@[simp] theorem countCorrupt_last : a.countCorrupt.last = a.last := rfl
@[simp] theorem countCorrupt_count : a.countCorrupt.count = a.count := rfl
@[simp] theorem countCorrupt_nextseq : a.countCorrupt.nextseq = a.nextseq := rfl
@[simp] theorem countCorrupt_lastack_v : a.countCorrupt.lastack_v = a.lastack_v := rfl
@[simp] theorem countCorrupt_lastack : a.countCorrupt.lastack = a.lastack := rfl
@[simp] theorem countCorrupt_trail : a.countCorrupt.trail = a.trail := rfl
@[simp] theorem countCorrupt_buf : a.countCorrupt.buf = a.buf := rfl
@[simp] theorem countCorrupt_cnt_wfull : a.countCorrupt.cnt_wfull = a.cnt_wfull := rfl
@[simp] theorem countCorrupt_cnt_ackcorrupt : a.countCorrupt.cnt_ackcorrupt = a.cnt_ackcorrupt + 1#32 := rfl
@[simp] theorem countCorrupt_cnt_ackdup : a.countCorrupt.cnt_ackdup = a.cnt_ackdup := rfl

@[simp] theorem countDup_init : a.countDup.init = a.init := rfl
@[simp] theorem countDup_first : a.countDup.first = a.first := rfl
@[simp] theorem countDup_last : a.countDup.last = a.last := rfl
@[simp] theorem countDup_count : a.countDup.count = a.count := rfl
@[simp] theorem countDup_nextseq : a.countDup.nextseq = a.nextseq := rfl
@[simp] theorem countDup_lastack_v : a.countDup.lastack_v = a.lastack_v := rfl
@[simp] theorem countDup_lastack : a.countDup.lastack = a.lastack := rfl
@[simp] theorem countDup_trail : a.countDup.trail = a.trail := rfl
@[simp] theorem countDup_buf : a.countDup.buf = a.buf := rfl
@[simp] theorem countDup_cnt_wfull : a.countDup.cnt_wfull = a.cnt_wfull := rfl
@[simp] theorem countDup_cnt_ackcorrupt : a.countDup.cnt_ackcorrupt = a.cnt_ackcorrupt := rfl
@[simp] theorem countDup_cnt_ackdup : a.countDup.cnt_ackdup = a.cnt_ackdup + 1#32 := rfl

end sender

section receiver
variable (b : Receiver) (q : Nat)

@[simp] theorem record_init : (b.record q).init = b.init := rfl
@[simp] theorem record_dlv : (b.record q).dlv = b.dlv.set q true := rfl
@[simp] theorem record_nseq : (b.record q).nseq = b.nseq := rfl
@[simp] theorem toggle_init : b.toggle.init = b.init := rfl
@[simp] theorem toggle_dlv : b.toggle.dlv = b.dlv := rfl
@[simp] theorem toggle_nseq : b.toggle.nseq = 1#1 - b.nseq := rfl

end receiver

section response
variable (res : ResultCode) (out : List Action)

@[simp] theorem ofOut_res : (Response.ofOut res out).res = res := rfl
@[simp] theorem ofOut_acc : (Response.ofOut res out).acc = false := rfl
@[simp] theorem ofOut_ckv : (Response.ofOut res out).ckv = 0#32 := rfl
@[simp] theorem ofOut_cor : (Response.ofOut res out).cor = false := rfl
@[simp] theorem ofOut_out : (Response.ofOut res out).out = out := rfl
@[simp] theorem of_res : (Response.of res).res = res := rfl
@[simp] theorem of_acc : (Response.of res).acc = false := rfl
@[simp] theorem of_ckv : (Response.of res).ckv = 0#32 := rfl
@[simp] theorem of_cor : (Response.of res).cor = false := rfl
@[simp] theorem of_out : (Response.of res).out = [] := rfl

end response

section powerOn
variable (c : Config)

@[simp] theorem powerOn_cfg : (State.powerOn c).cfg = c := rfl
@[simp] theorem powerOn_a : (State.powerOn c).a = Sender.powerOn c := rfl
@[simp] theorem powerOn_b : (State.powerOn c).b = Receiver.powerOn c := rfl
@[simp] theorem powerOn_fault : (State.powerOn c).fault = ⟨0#8, none⟩ := rfl
@[simp] theorem powerOn_timer : (State.powerOn c).timer = ⟨false, 0⟩ := rfl
@[simp] theorem powerOn_chanAB : (State.powerOn c).chanAB = [] := rfl
@[simp] theorem powerOn_chanBA : (State.powerOn c).chanBA = [] := rfl
@[simp] theorem powerOn_delivered : (State.powerOn c).delivered = [] := rfl
@[simp] theorem powerOn_inbox : (State.powerOn c).inbox = [] := rfl
@[simp] theorem powerOn_resp : (State.powerOn c).resp = none := rfl
@[simp] theorem sender_powerOn_init : (Sender.powerOn c).init = false := rfl
@[simp] theorem sender_powerOn_count : (Sender.powerOn c).count = 0 := rfl
@[simp] theorem receiver_powerOn_init : (Receiver.powerOn c).init = false := rfl

end powerOn

end Sys2Proof.Machine
end

