-- ==== Sys2Proof/Laws/Ops.lean ====
section
/-! SUPPORT. What each shared operation of Machine/Ops.lean can do, said once. -/

namespace Sys2Proof.Machine

/-! ### The host's reaction to outputs -/

section outputs
variable (t : Timer) (x : Action) (xs ys : List Action)

@[simp] theorem applyTimers_nil : applyTimers t [] = t := rfl
@[simp] theorem applyTimers_cons : applyTimers t (x :: xs) = applyTimers (applyTimer t x) xs := rfl
@[simp] theorem applyTimer_tx (e : Endpoint) (p : Packet) : applyTimer t (.tx e p) = t := rfl
@[simp] theorem applyTimer_deliver (e : Endpoint) (d : List Byte) : applyTimer t (.deliver e d) = t := rfl
@[simp] theorem applyTimer_tstart_a (d : Nat) : applyTimer t (.tstart .a d) = ⟨true, d⟩ := rfl
@[simp] theorem applyTimer_tstop_a : applyTimer t (.tstop .a) = { t with armed := false } := rfl

@[simp] theorem sentBy_nil (e : Endpoint) : sentBy e [] = [] := rfl
@[simp] theorem sentBy_tx_a_a (p : Packet) : sentBy .a (.tx .a p :: xs) = p :: sentBy .a xs := rfl
@[simp] theorem sentBy_tx_b_b (p : Packet) : sentBy .b (.tx .b p :: xs) = p :: sentBy .b xs := rfl
@[simp] theorem sentBy_tx_b_a (p : Packet) : sentBy .b (.tx .a p :: xs) = sentBy .b xs := rfl
@[simp] theorem sentBy_tx_a_b (p : Packet) : sentBy .a (.tx .b p :: xs) = sentBy .a xs := rfl
@[simp] theorem sentBy_deliver (e f : Endpoint) (d : List Byte) : sentBy e (.deliver f d :: xs) = sentBy e xs := rfl
@[simp] theorem sentBy_tstart (e f : Endpoint) (d : Nat) : sentBy e (.tstart f d :: xs) = sentBy e xs := rfl
@[simp] theorem sentBy_tstop (e f : Endpoint) : sentBy e (.tstop f :: xs) = sentBy e xs := rfl

@[simp] theorem deliveredBy_nil : deliveredBy [] = [] := rfl
@[simp] theorem deliveredBy_deliver_b (d : List Byte) : deliveredBy (.deliver .b d :: xs) = d :: deliveredBy xs := rfl
@[simp] theorem deliveredBy_tx (e : Endpoint) (p : Packet) : deliveredBy (.tx e p :: xs) = deliveredBy xs := by
  cases e <;> rfl
@[simp] theorem deliveredBy_tstart (e : Endpoint) (d : Nat) : deliveredBy (.tstart e d :: xs) = deliveredBy xs := by
  cases e <;> rfl
@[simp] theorem deliveredBy_tstop (e : Endpoint) : deliveredBy (.tstop e :: xs) = deliveredBy xs := by
  cases e <;> rfl

end outputs

/-! ### Codes -/

@[simp] theorem mask_illegalEvent : FaultCause.illegalEvent.mask = 0x01#8 := rfl
@[simp] theorem mask_notInit : FaultCause.notInit.mask = 0x02#8 := rfl
@[simp] theorem mask_reinit : FaultCause.reinit.mask = 0x04#8 := rfl
@[simp] theorem mask_config : FaultCause.config.mask = 0x08#8 := rfl
@[simp] theorem mask_rxSeqRange : FaultCause.rxSeqRange.mask = 0x10#8 := rfl

/-- Raising any cause leaves FAULT not 0. -/
theorem mask_ne_zero (cause : FaultCause) : cause.mask ≠ 0#8 := by cases cause <;> decide

@[simp] theorem word_aInit : Op.aInit.word = 0x0#4 := rfl
@[simp] theorem word_aSend : Op.aSend.word = 0x1#4 := rfl
@[simp] theorem word_aRx : Op.aRx.word = 0x2#4 := rfl
@[simp] theorem word_aTimeout : Op.aTimeout.word = 0x3#4 := rfl
@[simp] theorem word_bInit : Op.bInit.word = 0x8#4 := rfl
@[simp] theorem word_bRx : Op.bRx.word = 0xA#4 := rfl

/-! ### Ends of events -/

section ends
variable (s t : State) (r : Response)

@[simp] theorem finish_eq_next : finish s r = .next t ↔ t = s.publish r := by
  simp [finish, eq_comm]

@[simp] theorem finishSender_eq_next (x : Sender × Response) :
    finishSender s x = .next t ↔ t = State.publish { s with a := x.1 } x.2 := by
  simp [finishSender]

@[simp] theorem finishReceiver_eq_next (x : Receiver × Response) :
    finishReceiver s x = .next t ↔ t = State.publish { s with b := x.1 } x.2 := by
  simp [finishReceiver]

@[simp] theorem record_of_none {f : FaultRecord} (h : f.reg = 0#8) (cause : FaultCause) (info : FaultInfo) :
    f.record cause info = ⟨cause.mask, some info⟩ := by
  simp [FaultRecord.record, h]

@[simp] theorem record_of_some {f : FaultRecord} (h : f.reg ≠ 0#8) (cause : FaultCause) (info : FaultInfo) :
    f.record cause info = f := by
  simp [FaultRecord.record, h]

@[simp] theorem raiseFault_eq_next (cause : FaultCause) (ev : EventWord) (v : Bits32) :
    raiseFault cause ev v s = .next t ↔
      t = State.publish { s with fault := s.fault.record cause ⟨ev, v⟩ } (Response.of .faulted) := by
  simp [raiseFault]

end ends

/-! ### Admission -/

section admission
variable {s t : State} {rule : Answer} {o : Op}

theorem unlessFaulted_of_faulted (h : s.fault.reg ≠ 0#8) (rule : Answer) :
    unlessFaulted s rule = .next (s.publish (Response.of .faulted)) := by
  simp [unlessFaulted, h, finish]

theorem unlessFaulted_of_noFault (h : s.fault.reg = 0#8) (rule : Answer) : unlessFaulted s rule = rule := by
  simp [unlessFaulted, h]

/-- All that check 1 can do. -/
theorem unlessFaulted_cases (h : unlessFaulted s rule = .next t) :
    (s.fault.reg ≠ 0#8 ∧ t = s.publish (Response.of .faulted)) ∨ (s.fault.reg = 0#8 ∧ rule = .next t) := by
  by_cases hf : s.fault.reg = 0#8
  · exact .inr ⟨hf, by rwa [unlessFaulted_of_noFault hf] at h⟩
  · rw [unlessFaulted_of_faulted hf] at h
    exact .inl ⟨hf, by simpa using h.symm⟩

theorem admitSender_of_ready (hf : s.fault.reg = 0#8) (hi : s.a.init = true) (ha : s.a.windowAddressable s.cfg)
    (rule : Answer) : admitSender o s rule = rule := by
  rw [admitSender, unlessFaulted_of_noFault hf, if_neg (by simp [hi]), if_pos ha]

theorem admitSender_of_notInit (hf : s.fault.reg = 0#8) (hi : s.a.init = false) (rule : Answer) :
    admitSender o s rule = raiseFault .notInit o.word 0#32 s := by
  rw [admitSender, unlessFaulted_of_noFault hf, if_pos hi]

/-- All that the admission of a sender event can do when it answers a next state. -/
theorem admitSender_cases (h : admitSender o s rule = .next t) :
    (s.fault.reg ≠ 0#8 ∧ t = s.publish (Response.of .faulted)) ∨
    (s.fault.reg = 0#8 ∧ s.a.init = false ∧
      t = State.publish { s with fault := ⟨FaultCause.notInit.mask, some ⟨o.word, 0#32⟩⟩ } (Response.of .faulted)) ∨
    (s.fault.reg = 0#8 ∧ s.a.init = true ∧ s.a.windowAddressable s.cfg ∧ rule = .next t) := by
  rcases unlessFaulted_cases h with h | ⟨hf, h⟩
  · exact .inl h
  · by_cases hi : s.a.init = false
    · rw [if_pos hi] at h
      refine .inr (.inl ⟨hf, hi, ?_⟩)
      simpa [hf] using h
    · rw [if_neg hi] at h
      by_cases ha : s.a.windowAddressable s.cfg
      · rw [if_pos ha] at h
        exact .inr (.inr ⟨hf, by simpa using hi, ha, h⟩)
      · rw [if_neg ha] at h
        cases h

theorem admitReceiver_of_ready (hf : s.fault.reg = 0#8) (hi : s.b.init = true) (hb : s.b.recordAddressable s.cfg)
    (rule : Answer) : admitReceiver o s rule = rule := by
  rw [admitReceiver, unlessFaulted_of_noFault hf, if_neg (by simp [hi]), if_pos hb]

theorem admitReceiver_of_notInit (hf : s.fault.reg = 0#8) (hi : s.b.init = false) (rule : Answer) :
    admitReceiver o s rule = raiseFault .notInit o.word 0#32 s := by
  rw [admitReceiver, unlessFaulted_of_noFault hf, if_pos hi]

/-- All that the admission of B.RX can do when it answers a next state. -/
theorem admitReceiver_cases (h : admitReceiver o s rule = .next t) :
    (s.fault.reg ≠ 0#8 ∧ t = s.publish (Response.of .faulted)) ∨
    (s.fault.reg = 0#8 ∧ s.b.init = false ∧
      t = State.publish { s with fault := ⟨FaultCause.notInit.mask, some ⟨o.word, 0#32⟩⟩ } (Response.of .faulted)) ∨
    (s.fault.reg = 0#8 ∧ s.b.init = true ∧ s.b.recordAddressable s.cfg ∧ rule = .next t) := by
  rcases unlessFaulted_cases h with h | ⟨hf, h⟩
  · exact .inl h
  · by_cases hi : s.b.init = false
    · rw [if_pos hi] at h
      refine .inr (.inl ⟨hf, hi, ?_⟩)
      simpa [hf] using h
    · rw [if_neg hi] at h
      by_cases hb : s.b.recordAddressable s.cfg
      · rw [if_pos hb] at h
        exact .inr (.inr ⟨hf, by simpa using hi, hb, h⟩)
      · rw [if_neg hb] at h
        cases h

/-- All that presenting an expiry can do. -/
theorem presentExpiry_cases {rule : State → Answer} (h : presentExpiry s rule = .next t) :
    s.expiryAllowed ∧ rule s.disarm = .next t := by
  unfold presentExpiry at h
  split at h
  · exact ⟨‹_›, h⟩
  · cases h

theorem presentExpiry_of_allowed (h : s.expiryAllowed) (rule : State → Answer) :
    presentExpiry s rule = rule s.disarm := if_pos h

theorem presentExpiry_of_not_allowed (h : ¬ s.expiryAllowed) (rule : State → Answer) :
    presentExpiry s rule = .refused .expiryNotPresentable := if_neg h

/-- All that an event word outside the opcode map can do. -/
theorem execIllegal_cases {ev : EventWord} (h : execIllegal ev s = .next t) :
    (s.fault.reg ≠ 0#8 ∧ t = s.publish (Response.of .faulted)) ∨
    (s.fault.reg = 0#8 ∧
      t = State.publish { s with fault := ⟨FaultCause.illegalEvent.mask, some ⟨ev, 0#32⟩⟩ } (Response.of .faulted)) := by
  rcases unlessFaulted_cases h with h | ⟨hf, h⟩
  · exact .inl h
  · exact .inr ⟨hf, by simpa [hf] using h⟩

end admission

/-! ### The window buffer -/

section buffer
variable (a : Sender) (i j : Nat) (sl : Slot) (t : SlotTag)

theorem slotAt_setSlot_self (h : i < a.buf.length) : (a.setSlot i sl).slotAt i = sl := by
  simp [Sender.slotAt, List.getD_eq_getElem?_getD, h]

theorem slotAt_setSlot_ne (h : i ≠ j) : (a.setSlot i sl).slotAt j = a.slotAt j := by
  simp [Sender.slotAt, List.getD_eq_getElem?_getD, List.getElem?_set_ne h]

theorem slotAt_setTag_self (h : i < a.buf.length) : (a.setTag i t).slotAt i = ⟨t, (a.slotAt i).pkt⟩ :=
  slotAt_setSlot_self a i _ h

theorem slotAt_setTag_ne (h : i ≠ j) : (a.setTag i t).slotAt j = a.slotAt j :=
  slotAt_setSlot_ne a i j _ h

@[simp] theorem slotAt_setTag_pkt : ((a.setTag i t).slotAt j).pkt = (a.slotAt j).pkt := by
  by_cases h : i = j
  · subst h
    by_cases hl : i < a.buf.length
    · rw [slotAt_setTag_self a i t hl]
    · simp [Sender.setTag, Sender.setSlot, Sender.slotAt, List.set_eq_of_length_le (Nat.le_of_not_lt hl)]
  · rw [slotAt_setTag_ne a i j t h]

@[simp] theorem setTag_lo : (a.setTag i t).lo = a.lo := by simp [Sender.lo]

@[simp] theorem setTag_hi : (a.setTag i t).hi = a.hi := by simp [Sender.hi]

@[simp] theorem countFull_slotAt : a.countFull.slotAt i = a.slotAt i := rfl
@[simp] theorem countCorrupt_slotAt : a.countCorrupt.slotAt i = a.slotAt i := rfl
@[simp] theorem countDup_slotAt : a.countDup.slotAt i = a.slotAt i := rfl

end buffer

/-! ### The delivery record -/

section record
variable (b : Receiver) (q r : Nat)

theorem hasDelivered_record_self (h : q < b.dlv.length) : (b.record q).hasDelivered q = true := by
  simp [Receiver.hasDelivered, List.getD_eq_getElem?_getD, h]

theorem hasDelivered_record_ne (h : q ≠ r) : (b.record q).hasDelivered r = b.hasDelivered r := by
  simp [Receiver.hasDelivered, List.getD_eq_getElem?_getD, List.getElem?_set_ne h]

@[simp] theorem hasDelivered_toggle : b.toggle.hasDelivered q = b.hasDelivered q := rfl

theorem record_length : (b.record q).dlv.length = b.dlv.length := by simp

end record

/-! ### The configuration check -/

theorem lastackResetLegal_eq_true (c : Config) :
    lastackResetLegal c = true ↔ ∀ k, c.LASTACK_RESET = some k → inSeqSpace c k := by
  unfold lastackResetLegal
  cases c.LASTACK_RESET <;> simp

theorem firstFalse_eq_zero (n : Nat) (hn : 0 < n) : ∀ bs, firstFalse n bs = 0 ↔ ∀ b ∈ bs, b = true
  | [] => by simp [firstFalse]
  | true :: bs => by simpa [firstFalse] using firstFalse_eq_zero (n + 1) (Nat.succ_pos n) bs
  | false :: bs => by simp [firstFalse]; omega

/-- The number of the first false clause: that clause is false and every one before it is true. -/
theorem firstFalse_spec (n : Nat) : ∀ bs k, bs[k]? = some false → (∀ j < k, bs[j]? = some true) → firstFalse n bs = n + k
  | [], k, h, _ => by simp at h
  | b :: bs, 0, h, _ => by
    have hb : b = false := by simpa using h
    subst hb; rfl
  | b :: bs, k + 1, h, hlt => by
    have hb : b = true := by simpa using hlt 0 (Nat.succ_pos k)
    subst hb
    have := firstFalse_spec (n + 1) bs k (by simpa using h) fun j hj => by simpa using hlt (j + 1) (by omega)
    rw [firstFalse, this]; omega

end Sys2Proof.Machine
end

