-- ==== Sys2Proof/Laws/Operands.lean ====
section
/-! SUPPORT. Packets: the checksum as a sum, the corruption test, and packets the block builds. -/

namespace Sys2Proof.Machine

variable (c : Config)

@[simp] theorem addBytes_nil (acc : Bits32) : addBytes c acc [] = acc := rfl

@[simp] theorem addBytes_cons (acc : Bits32) (b : Byte) (bs : List Byte) :
    addBytes c acc (b :: bs) = addBytes c (acc + ext8 c b) bs := rfl

theorem addBytes_eq_add_sum (bs : List Byte) : ∀ acc, addBytes c acc bs = acc + (bs.map (ext8 c)).sum := by
  induction bs with
  | nil => simp
  | cons b bs ih => intro acc; simp [ih, add_assoc]

/-- 40_integrity.md R100 as one sum. -/
theorem computeChecksum_eq_sum (p : Packet) :
    computeChecksum c p = p.seqnum + p.acknum + (p.payload.map (ext8 c)).sum :=
  addBytes_eq_add_sum c p.payload _

@[simp] theorem computeChecksum_withChecksum (p : Packet) (v : Bits32) :
    computeChecksum c { p with checksum := v } = computeChecksum c p := rfl

theorem isCorrupted_eq_false (p : Packet) : isCorrupted c p = false ↔ p.checksum = computeChecksum c p := by
  simp [isCorrupted]

theorem isCorrupted_eq_true (p : Packet) : isCorrupted c p = true ↔ p.checksum ≠ computeChecksum c p := by
  simp [isCorrupted]

@[simp] theorem mkpkt_seqnum (s k : Bits32) (pl : List Byte) : (mkpkt c s k pl).seqnum = s := rfl
@[simp] theorem mkpkt_acknum (s k : Bits32) (pl : List Byte) : (mkpkt c s k pl).acknum = k := rfl
@[simp] theorem mkpkt_payload (s k : Bits32) (pl : List Byte) : (mkpkt c s k pl).payload = pl := rfl
@[simp] theorem mkpkt_checksum (s k : Bits32) (pl : List Byte) :
    (mkpkt c s k pl).checksum = computeChecksum c (mkpkt c s k pl) := rfl

/-- A packet is not corrupted right after the block builds it. -/
@[simp] theorem isCorrupted_mkpkt (s k : Bits32) (pl : List Byte) : isCorrupted c (mkpkt c s k pl) = false := by
  simp [isCorrupted_eq_false]

@[simp] theorem fill_length (b : Byte) : (fill c b).length = c.L := by simp [fill]

/-- A number of the sequence space survives the 32-bit word (00_scope.md R9, R7). -/
theorem sint_word_of_lt {n : Nat} (h : n < 2 ^ 31) : sint (word n) = n := by
  unfold sint word
  rw [BitVec.toInt_ofInt]
  have hn : (n : Int) < 2 ^ 31 := by exact_mod_cast h
  rw [Int.bmod_def]
  omega

end Sys2Proof.Machine
end

