-- ==== Sys2Proof/Laws/Window.lean ====
section
/-! SUPPORT. What the two loops of a slide do, said once (41_sender.md R115). -/

namespace Sys2Proof.Machine

variable (c : Config)

/-- The scan writes `A.trail` only. -/
theorem scanTrail_eq : ∀ fuel (a : Sender), scanTrail c fuel a = { a with trail := (scanTrail c fuel a).trail }
  | 0, _ => rfl
  | fuel + 1, a => by
    unfold scanTrail
    split
    · exact scanTrail_eq fuel { a with trail := a.trail + 1 }
    · rfl

/-- The scan stops, after the ACKED slots it has counted, at the newest slot or at one that is not ACKED. -/
theorem scanTrail_spec : ∀ fuel (a : Sender), a.count ≤ fuel + a.trail + 1 → a.trail < a.count →
    a.trail ≤ (scanTrail c fuel a).trail ∧ (scanTrail c fuel a).trail < a.count ∧
    (∀ j, a.trail ≤ j → j < (scanTrail c fuel a).trail → (a.slotAt (a.indexOf c (1 + j))).tag = .acked) ∧
    ((scanTrail c fuel a).trail + 1 < a.count →
      (a.slotAt (a.indexOf c (1 + (scanTrail c fuel a).trail))).tag ≠ .acked)
  | 0, a, hf, hlt => by
    refine ⟨Nat.le_refl _, hlt, fun j h1 h2 => absurd h2 (Nat.not_lt.mpr h1), fun h => ?_⟩
    simp only [scanTrail] at h
    omega
  | fuel + 1, a, hf, hlt => by
    unfold scanTrail
    split
    next hc =>
      have ih := scanTrail_spec fuel { a with trail := a.trail + 1 } (by simp only; omega) (by simpa using hc.1)
      simp only at ih
      refine ⟨by omega, ih.2.1, fun j h1 h2 => ?_, ih.2.2.2⟩
      rcases Nat.eq_or_lt_of_le h1 with rfl | h1
      · exact hc.2
      · exact ih.2.2.1 j h1 h2
    next hc =>
      refine ⟨Nat.le_refl _, hlt, fun j h1 h2 => absurd h2 (Nat.not_lt.mpr h1), fun h ht => hc ⟨h, ht⟩⟩

section clear
variable (n i j : Nat) (a : Sender)

/-- Clearing writes tags of the buffer only. -/
theorem clearOldest_eq : ∀ n, clearOldest c n a = { a with buf := (clearOldest c n a).buf }
  | 0 => rfl
  | n + 1 => by rw [clearOldest, clearOldest_eq n]; rfl

@[simp] theorem clearOldest_buf_length : (clearOldest c n a).buf.length = a.buf.length := by
  induction n with
  | zero => rfl
  | succ n ih => simp [clearOldest, ih]

@[simp] theorem clearOldest_first : (clearOldest c n a).first = a.first := by rw [clearOldest_eq]

@[simp] theorem clearOldest_indexOf : (clearOldest c n a).indexOf c i = a.indexOf c i := by
  simp [Sender.indexOf]

@[simp] theorem clearOldest_slotAt_pkt : ((clearOldest c n a).slotAt i).pkt = (a.slotAt i).pkt := by
  induction n with
  | zero => rfl
  | succ n ih => simp [clearOldest, ih]

/-- A slot that is none of the `n` oldest keeps its tag. -/
theorem clearOldest_slotAt_of_ne (h : ∀ j < n, a.indexOf c j ≠ i) : (clearOldest c n a).slotAt i = a.slotAt i := by
  induction n with
  | zero => rfl
  | succ n ih =>
    rw [clearOldest, slotAt_setTag_ne _ _ _ _ (by simpa using h n (Nat.lt_succ_self n))]
    exact ih fun j hj => h j (Nat.lt_succ_of_lt hj)

/-- Each of the `n` oldest slots becomes EMPTY. -/
theorem clearOldest_slotAt_tag (hw : 0 < c.W) (hl : a.buf.length = c.W) (hj : j < n) :
    ((clearOldest c n a).slotAt (a.indexOf c j)).tag = .empty := by
  induction n with
  | zero => omega
  | succ n ih =>
    have hlt : (clearOldest c n a).indexOf c n < (clearOldest c n a).buf.length := by
      simp [hl, Sender.indexOf, Nat.mod_lt _ hw]
    rw [clearOldest]
    by_cases he : a.indexOf c n = a.indexOf c j
    · rw [← he, ← clearOldest_indexOf c n n a, slotAt_setTag_self _ _ _ hlt]
    · rw [slotAt_setTag_ne _ _ _ _ (by simpa using he)]
      exact ih (by
        rcases Nat.eq_or_lt_of_le (Nat.lt_succ_iff.mp hj) with rfl | h
        · exact absurd rfl he
        · exact h)

end clear

/-- All that `slide()` does (41_sender.md R115): there is a number `n` of slots, from 1 to `A.count`, all but the oldest
of them ACKED, with the newest slot or one that is not ACKED next; they become EMPTY and the window moves past them. -/
theorem slide_spec (a : Sender) (hc : 0 < a.count) :
    ∃ n, 1 ≤ n ∧ n ≤ a.count ∧
      (∀ j, 1 ≤ j → j < n → (a.slotAt (a.indexOf c j)).tag = .acked) ∧
      (n < a.count → (a.slotAt (a.indexOf c n)).tag ≠ .acked) ∧
      slide c a = { a with
        buf := (clearOldest c n a).buf, first := (a.first + n) % c.W, count := a.count - n, trail := 0 } := by
  have hs := scanTrail_spec c a.count { a with trail := 0 } (by simp only; omega) (by simpa using hc)
  have he := scanTrail_eq c a.count { a with trail := 0 }
  generalize hT : (scanTrail c a.count { a with trail := 0 }).trail = T at hs he
  simp only at hs he
  refine ⟨1 + T, by omega, by omega, fun j h1 h2 => ?_, fun h => ?_, ?_⟩
  · have := hs.2.2.1 (j - 1) (Nat.zero_le _) (by omega)
    rwa [show 1 + (j - 1) = j by omega] at this
  · exact hs.2.2.2 (by omega)
  · simp only [slide, he]
    rw [clearOldest_eq]
    have hb : ∀ m, (clearOldest c m { a with trail := T }).buf = (clearOldest c m a).buf := by
      intro m
      induction m with
      | zero => rfl
      | succ m ih =>
        have hp : ∀ i, ((clearOldest c m { a with trail := T }).slotAt i).pkt = ((clearOldest c m a).slotAt i).pkt := by
          intro i
          rw [clearOldest_slotAt_pkt, clearOldest_slotAt_pkt]; rfl
        simp only [clearOldest, setTag_buf, ih, hp]
        rfl
    rw [hb]

end Sys2Proof.Machine
end

