-- ==== Sys2Proof/Laws/Exec.lean ====
section
/-! SUPPORT. What each meaning can do when it answers a next state, said once, and what a step can do. -/

namespace Sys2Proof.Machine

/-- Check 1 of admission, as an outcome: the block is faulted, and only the response is new. -/
def QuietFault (s t : State) : Prop := s.fault.reg ≠ 0#8 ∧ t = s.publish (Response.of .faulted)

/-- A fault is raised: the record is written, and the response is FAULTED. -/
def Raised (s t : State) (cause : FaultCause) (ev : EventWord) (v : Bits32) : Prop :=
  s.fault.reg = 0#8 ∧ t = State.publish { s with fault := ⟨cause.mask, some ⟨ev, v⟩⟩ } (Response.of .faulted)

variable {s t : State} {pkt : Packet} {pay : List Byte}

theorem execCkCompute_cases (h : execCkCompute pkt s = .next t) :
    QuietFault s t ∨
    (s.fault.reg = 0#8 ∧ t = s.publish { Response.of .ckDone with ckv := computeChecksum s.cfg pkt }) := by
  simpa [QuietFault] using unlessFaulted_cases h

theorem execCkVerify_cases (h : execCkVerify pkt s = .next t) :
    QuietFault s t ∨
    (s.fault.reg = 0#8 ∧ t = s.publish { Response.of .ckDone with cor := isCorrupted s.cfg pkt }) := by
  simpa [QuietFault] using unlessFaulted_cases h

theorem execASend_cases (h : execASend pay s = .next t) :
    QuietFault s t ∨ (s.a.init = false ∧ Raised s t .notInit Op.aSend.word 0#32) ∨
    (s.fault.reg = 0#8 ∧ s.a.init = true ∧ s.a.windowAddressable s.cfg ∧
      t = State.publish { s with a := (sendRule s.cfg pay s.a).1 } (sendRule s.cfg pay s.a).2) := by
  rcases admitSender_cases h with h | ⟨hf, hi, h⟩ | ⟨hf, hi, ha, h⟩
  · exact .inl h
  · exact .inr (.inl ⟨hi, hf, h⟩)
  · exact .inr (.inr ⟨hf, hi, ha, by simpa using h⟩)

theorem execARx_cases (h : execARx pkt s = .next t) :
    QuietFault s t ∨ (s.a.init = false ∧ Raised s t .notInit Op.aRx.word 0#32) ∨
    (s.fault.reg = 0#8 ∧ s.a.init = true ∧ s.a.windowAddressable s.cfg ∧
      t = State.publish { s with a := (ackRule s.cfg pkt s.a).1 } (ackRule s.cfg pkt s.a).2) := by
  rcases admitSender_cases h with h | ⟨hf, hi, h⟩ | ⟨hf, hi, ha, h⟩
  · exact .inl h
  · exact .inr (.inl ⟨hi, hf, h⟩)
  · exact .inr (.inr ⟨hf, hi, ha, by simpa using h⟩)

theorem execATimeout_cases (h : execATimeout s = .next t) :
    s.expiryAllowed ∧
    (QuietFault s.disarm t ∨ (s.a.init = false ∧ Raised s.disarm t .notInit Op.aTimeout.word 0#32) ∨
      (s.fault.reg = 0#8 ∧ s.a.init = true ∧ s.a.windowAddressable s.cfg ∧
        t = s.disarm.publish (timeoutRule s.cfg s.a))) := by
  obtain ⟨he, h⟩ := presentExpiry_cases h
  refine ⟨he, ?_⟩
  rcases admitSender_cases h with h | ⟨hf, hi, h⟩ | ⟨hf, hi, ha, h⟩
  · exact .inl h
  · exact .inr (.inl ⟨hi, hf, h⟩)
  · exact .inr (.inr ⟨hf, hi, ha, by simpa using h⟩)

theorem execBRx_cases (h : execBRx pkt s = .next t) :
    QuietFault s t ∨ (s.b.init = false ∧ Raised s t .notInit Op.bRx.word 0#32) ∨
    (s.fault.reg = 0#8 ∧ s.b.init = true ∧ s.b.recordAddressable s.cfg ∧
      ((isCorrupted s.cfg pkt = true ∧ t = s.publish (Response.of .rxCorrupt)) ∨
       (isCorrupted s.cfg pkt = false ∧ ¬ inSeqSpace s.cfg (sint pkt.seqnum) ∧
          Raised s t .rxSeqRange Op.bRx.word pkt.seqnum) ∨
       (isCorrupted s.cfg pkt = false ∧ inSeqSpace s.cfg (sint pkt.seqnum) ∧
          t = State.publish { s with b := (acceptData s.cfg pkt s.b).1 } (acceptData s.cfg pkt s.b).2))) := by
  rcases admitReceiver_cases h with h | ⟨hf, hi, h⟩ | ⟨hf, hi, ha, h⟩
  · exact .inl h
  · exact .inr (.inl ⟨hi, hf, h⟩)
  · refine .inr (.inr ⟨hf, hi, ha, ?_⟩)
    split at h
    next hc => exact .inl ⟨hc, by simpa using h⟩
    next hc =>
      have hc : isCorrupted s.cfg pkt = false := by simpa using hc
      split at h
      next hr => exact .inr (.inr ⟨hc, hr, by simpa using h⟩)
      next hr => exact .inr (.inl ⟨hc, hr, hf, by simpa [hf] using h⟩)

theorem execAInit_cases (h : execAInit s = .next t) :
    QuietFault s t ∨ (s.a.init = true ∧ Raised s t .reinit Op.aInit.word 0#32) ∨
    (s.a.init = false ∧ firstViolatedClause s.cfg ≠ 0 ∧
      Raised s t .config Op.aInit.word (BitVec.ofNat 32 (firstViolatedClause s.cfg))) ∨
    (s.fault.reg = 0#8 ∧ s.a.init = false ∧ firstViolatedClause s.cfg = 0 ∧
      t = State.publish { s with a := initSender s.cfg s.a } (Response.of .initDone)) := by
  rcases unlessFaulted_cases h with h | ⟨hf, h⟩
  · exact .inl h
  · split at h
    next hi => exact .inr (.inl ⟨hi, hf, by simpa [hf] using h⟩)
    next hi =>
      have hi : s.a.init = false := by simpa using hi
      split at h
      next hc => exact .inr (.inr (.inl ⟨hi, hc, hf, by simpa [hf] using h⟩))
      next hc => exact .inr (.inr (.inr ⟨hf, hi, by simpa using hc, by simpa using h⟩))

theorem execBInit_cases (h : execBInit s = .next t) :
    QuietFault s t ∨ (s.b.init = true ∧ Raised s t .reinit Op.bInit.word 0#32) ∨
    (s.b.init = false ∧ firstViolatedClause s.cfg ≠ 0 ∧
      Raised s t .config Op.bInit.word (BitVec.ofNat 32 (firstViolatedClause s.cfg))) ∨
    (s.fault.reg = 0#8 ∧ s.b.init = false ∧ firstViolatedClause s.cfg = 0 ∧
      t = State.publish { s with b := initReceiver s.cfg } (Response.of .initDone)) := by
  rcases unlessFaulted_cases h with h | ⟨hf, h⟩
  · exact .inl h
  · split at h
    next hi => exact .inr (.inl ⟨hi, hf, by simpa [hf] using h⟩)
    next hi =>
      have hi : s.b.init = false := by simpa using hi
      split at h
      next hc => exact .inr (.inr (.inl ⟨hi, hc, hf, by simpa [hf] using h⟩))
      next hc => exact .inr (.inr (.inr ⟨hf, hi, by simpa using hc, by simpa using h⟩))

/-- All that the rule of A.SEND can do (41_sender.md R111). -/
theorem sendRule_cases (c : Config) (pay : List Byte) (a : Sender) :
    (a.count < c.W ∧ sendRule c pay a = acceptSend c pay a) ∨
    (c.W ≤ a.count ∧ sendRule c pay a = (a.countFull, Response.of .sendFull)) := by
  unfold sendRule
  split
  · exact .inl ⟨‹_›, rfl⟩
  · exact .inr ⟨Nat.le_of_not_lt ‹_›, rfl⟩

/-- All that the rule of A.RX can do (41_sender.md R112). -/
theorem ackRule_cases (c : Config) (p : Packet) (a : Sender) :
    (isCorrupted c p = true ∧ ackRule c p a = (a.countCorrupt, Response.of .ackCorrupt)) ∨
    (isCorrupted c p = false ∧ (a.count = 0 ∨ a.repeatsLastAck (sint p.acknum)) ∧
      ackRule c p a = (a.countDup, Response.of .ackDup)) ∨
    (isCorrupted c p = false ∧ 0 < a.count ∧ ¬ a.repeatsLastAck (sint p.acknum) ∧
      inRange c a (sint p.acknum) = false ∧ ackRule c p a = (a.countDup, Response.of .ackStale)) ∨
    (isCorrupted c p = false ∧ 0 < a.count ∧ ¬ a.repeatsLastAck (sint p.acknum) ∧
      inRange c a (sint p.acknum) = true ∧ sint p.acknum ≠ a.lo ∧
      ackRule c p a =
        ((a.acceptAck (sint p.acknum)).setTag (sackIndex c a (sint p.acknum)) .acked, Response.of .ackSack)) ∨
    (isCorrupted c p = false ∧ 0 < a.count ∧ ¬ a.repeatsLastAck (sint p.acknum) ∧
      inRange c a (sint p.acknum) = true ∧ sint p.acknum = a.lo ∧
      ackRule c p a = (slide c (a.acceptAck (sint p.acknum)),
        Response.ofOut .ackSlide (slideTimers c (slide c (a.acceptAck (sint p.acknum)))))) := by
  unfold ackRule acceptAckRule
  split
  next h => exact .inl ⟨h, rfl⟩
  next h =>
    have h : isCorrupted c p = false := by simpa using h
    refine .inr ?_
    split
    next hd => exact .inl ⟨h, hd, rfl⟩
    next hd =>
      have hpos : 0 < a.count := Nat.pos_of_ne_zero fun h0 => hd (.inl h0)
      have hrep : ¬ a.repeatsLastAck (sint p.acknum) := fun hr => hd (.inr hr)
      refine .inr ?_
      split
      next hr => exact .inl ⟨h, hpos, hrep, hr, rfl⟩
      next hr =>
        have hr : inRange c a (sint p.acknum) = true := by simpa using hr
        refine .inr ?_
        by_cases hk : sint p.acknum = a.lo
        · exact .inr ⟨h, hpos, hrep, hr, hk, if_neg fun hne => hne hk⟩
        · exact .inl ⟨h, hpos, hrep, hr, hk, if_pos hk⟩

/-- All that the rule of A.TIMEOUT can do (41_sender.md R117). -/
theorem timeoutRule_cases (c : Config) (a : Sender) :
    ((a.count = 0 ∨ (a.slotAt a.first).tag = .acked) ∧ timeoutRule c a = Response.of .toIgnored) ∨
    (0 < a.count ∧ (a.slotAt a.first).tag ≠ .acked ∧
      timeoutRule c a = Response.ofOut .toRetx [.tx .a (a.slotAt a.first).pkt, .tstart .a (c.RTT + 1)]) := by
  unfold timeoutRule
  split
  next h => exact .inl ⟨.inl h, rfl⟩
  next h =>
    split
    next ht => exact .inl ⟨.inr ht, rfl⟩
    next ht => exact .inr ⟨Nat.pos_of_ne_zero h, ht, rfl⟩

/-- All that the rule of B.RX can do for an accepted packet (42_receiver.md R141). -/
theorem acceptData_cases (c : Config) (p : Packet) (b : Receiver) :
    (b.hasDelivered (sint p.seqnum).toNat = false ∧
      acceptData c p b = ((b.record (sint p.seqnum).toNat).toggle,
        Response.ofOut .rxNew [.deliver .b p.payload, .tx .b (ackFor c b p.seqnum)])) ∨
    (b.hasDelivered (sint p.seqnum).toNat = true ∧
      acceptData c p b = (b.toggle, Response.ofOut .rxDup [.tx .b (ackFor c b p.seqnum)])) := by
  by_cases h : b.hasDelivered (sint p.seqnum).toNat = false
  · exact .inl ⟨h, if_pos h⟩
  · exact .inr ⟨by simpa using h, if_neg h⟩

/-! ### All that exec can do -/

/-- When an event raises a fault, and with which value (60_exceptions.md R163, R165; 42_receiver.md R141). An event word
outside the opcode map is no instruction. -/
def Raises (i : Instr) (s : State) (v : Bits32) : FaultCause → Prop
  | .illegalEvent => False
  | .notInit => v = 0#32 ∧
      (s.a.init = false ∧ ((∃ pay, i = .aSend pay) ∨ (∃ p, i = .aRx p)) ∨ s.b.init = false ∧ ∃ p, i = .bRx p)
  | .reinit => v = 0#32 ∧ (s.a.init = true ∧ i = .aInit ∨ s.b.init = true ∧ i = .bInit)
  | .config => v = BitVec.ofNat 32 (firstViolatedClause s.cfg) ∧ firstViolatedClause s.cfg ≠ 0 ∧
      (s.a.init = false ∧ i = .aInit ∨ s.b.init = false ∧ i = .bInit)
  | .rxSeqRange => ∃ p, i = .bRx p ∧ v = p.seqnum ∧ isCorrupted s.cfg p = false ∧ ¬ inSeqSpace s.cfg (sint p.seqnum)

/-- The ways in which an event can answer a next state. An expiry is presented, so the timer is disarmed first. -/
inductive Ran (i : Instr) (s : State) : State → Prop
  | quiet (hf : s.fault.reg ≠ 0#8) (hi : i ≠ .aTimeout) : Ran i s (s.publish (Response.of .faulted))
  | quietExpiry (hf : s.fault.reg ≠ 0#8) (hi : i = .aTimeout) (he : s.expiryAllowed) :
      Ran i s (s.disarm.publish (Response.of .faulted))
  | raised (hf : s.fault.reg = 0#8) (hi : i ≠ .aTimeout) (cause : FaultCause) (v : Bits32) (hr : Raises i s v cause) :
      Ran i s (State.publish { s with fault := ⟨cause.mask, some ⟨i.op.word, v⟩⟩ } (Response.of .faulted))
  | raisedExpiry (hf : s.fault.reg = 0#8) (hi : i = .aTimeout) (he : s.expiryAllowed) (hn : s.a.init = false) :
      Ran i s (State.publish { s.disarm with fault := ⟨FaultCause.notInit.mask, some ⟨i.op.word, 0#32⟩⟩ }
        (Response.of .faulted))
  | aInit (hf : s.fault.reg = 0#8) (hi : i = .aInit) (hn : s.a.init = false) (hc : firstViolatedClause s.cfg = 0) :
      Ran i s (State.publish { s with a := initSender s.cfg s.a } (Response.of .initDone))
  | bInit (hf : s.fault.reg = 0#8) (hi : i = .bInit) (hn : s.b.init = false) (hc : firstViolatedClause s.cfg = 0) :
      Ran i s (State.publish { s with b := initReceiver s.cfg } (Response.of .initDone))
  | aSend (hf : s.fault.reg = 0#8) (pay : List Byte) (hi : i = .aSend pay) (hn : s.a.init = true)
      (ha : s.a.windowAddressable s.cfg) :
      Ran i s (State.publish { s with a := (sendRule s.cfg pay s.a).1 } (sendRule s.cfg pay s.a).2)
  | aRx (hf : s.fault.reg = 0#8) (pkt : Packet) (hi : i = .aRx pkt) (hn : s.a.init = true)
      (ha : s.a.windowAddressable s.cfg) :
      Ran i s (State.publish { s with a := (ackRule s.cfg pkt s.a).1 } (ackRule s.cfg pkt s.a).2)
  | aTimeout (hf : s.fault.reg = 0#8) (hi : i = .aTimeout) (he : s.expiryAllowed) (hn : s.a.init = true)
      (ha : s.a.windowAddressable s.cfg) : Ran i s (s.disarm.publish (timeoutRule s.cfg s.a))
  | ckCompute (hf : s.fault.reg = 0#8) (pkt : Packet) (hi : i = .ckCompute pkt) :
      Ran i s (s.publish { Response.of .ckDone with ckv := computeChecksum s.cfg pkt })
  | ckVerify (hf : s.fault.reg = 0#8) (pkt : Packet) (hi : i = .ckVerify pkt) :
      Ran i s (s.publish { Response.of .ckDone with cor := isCorrupted s.cfg pkt })
  | bRxCorrupt (hf : s.fault.reg = 0#8) (pkt : Packet) (hi : i = .bRx pkt) (hn : s.b.init = true)
      (hb : s.b.recordAddressable s.cfg) (hc : isCorrupted s.cfg pkt = true) :
      Ran i s (s.publish (Response.of .rxCorrupt))
  | bRx (hf : s.fault.reg = 0#8) (pkt : Packet) (hi : i = .bRx pkt) (hn : s.b.init = true)
      (hb : s.b.recordAddressable s.cfg) (hc : isCorrupted s.cfg pkt = false)
      (hr : inSeqSpace s.cfg (sint pkt.seqnum)) :
      Ran i s (State.publish { s with b := (acceptData s.cfg pkt s.b).1 } (acceptData s.cfg pkt s.b).2)

/-- All that exec can do when it answers a next state. -/
theorem exec_cases {i : Instr} (h : exec i s = .next t) : Ran i s t := by
  cases i <;> simp only [exec] at h
  · rcases execAInit_cases h with ⟨hf, rfl⟩ | ⟨hn, hf, rfl⟩ | ⟨hn, hc, hf, rfl⟩ | ⟨hf, hn, hc, rfl⟩
    · exact .quiet hf (by simp)
    · exact .raised hf (by simp) .reinit _ ⟨rfl, .inl ⟨hn, rfl⟩⟩
    · exact .raised hf (by simp) .config _ ⟨rfl, hc, .inl ⟨hn, rfl⟩⟩
    · exact .aInit hf rfl hn hc
  · rcases execASend_cases h with ⟨hf, rfl⟩ | ⟨hn, hf, rfl⟩ | ⟨hf, hn, ha, rfl⟩
    · exact .quiet hf (by simp)
    · exact .raised hf (by simp) .notInit _ ⟨rfl, .inl ⟨hn, .inl ⟨_, rfl⟩⟩⟩
    · exact .aSend hf _ rfl hn ha
  · rcases execARx_cases h with ⟨hf, rfl⟩ | ⟨hn, hf, rfl⟩ | ⟨hf, hn, ha, rfl⟩
    · exact .quiet hf (by simp)
    · exact .raised hf (by simp) .notInit _ ⟨rfl, .inl ⟨hn, .inr ⟨_, rfl⟩⟩⟩
    · exact .aRx hf _ rfl hn ha
  · obtain ⟨he, h⟩ := execATimeout_cases h
    rcases h with ⟨hf, rfl⟩ | ⟨hn, hf, rfl⟩ | ⟨hf, hn, ha, rfl⟩
    · exact .quietExpiry hf rfl he
    · exact .raisedExpiry hf rfl he hn
    · exact .aTimeout hf rfl he hn ha
  · rcases execCkCompute_cases h with ⟨hf, rfl⟩ | ⟨hf, rfl⟩
    · exact .quiet hf (by simp)
    · exact .ckCompute hf _ rfl
  · rcases execCkVerify_cases h with ⟨hf, rfl⟩ | ⟨hf, rfl⟩
    · exact .quiet hf (by simp)
    · exact .ckVerify hf _ rfl
  · rcases execBInit_cases h with ⟨hf, rfl⟩ | ⟨hn, hf, rfl⟩ | ⟨hn, hc, hf, rfl⟩ | ⟨hf, hn, hc, rfl⟩
    · exact .quiet hf (by simp)
    · exact .raised hf (by simp) .reinit _ ⟨rfl, .inr ⟨hn, rfl⟩⟩
    · exact .raised hf (by simp) .config _ ⟨rfl, hc, .inr ⟨hn, rfl⟩⟩
    · exact .bInit hf rfl hn hc
  · rcases execBRx_cases h with
      ⟨hf, rfl⟩ | ⟨hn, hf, rfl⟩ | ⟨hf, hn, hb, ⟨hc, rfl⟩ | ⟨hc, hr, _, rfl⟩ | ⟨hc, hr, rfl⟩⟩
    · exact .quiet hf (by simp)
    · exact .raised hf (by simp) .notInit _ ⟨rfl, .inr ⟨hn, _, rfl⟩⟩
    · exact .bRxCorrupt hf _ rfl hn hb hc
    · exact .raised hf (by simp) .rxSeqRange _ ⟨_, rfl, rfl, hc, hr⟩
    · exact .bRx hf _ rfl hn hb hc hr

/-! ### Steps -/

theorem step_of_inbox_nil (h : s.inbox = []) : step s = .next s := by
  simp [step, fetch, h, idle]

theorem step_of_decoded {tr : Transaction} {rest : List Transaction} {i : Instr} (h : s.inbox = tr :: rest)
    (hd : decode s.cfg tr = .ok i) : step s = exec i { s with inbox := rest } := by
  simp [step, fetch, h, hd]

/-- All that a step can do when it answers a next state. -/
theorem step_cases (h : step s = .next t) :
    (s.inbox = [] ∧ t = s) ∨
    (∃ tr rest i, s.inbox = tr :: rest ∧ decode s.cfg tr = .ok i ∧ exec i { s with inbox := rest } = .next t) ∨
    (∃ tr rest ev, s.inbox = tr :: rest ∧ decode s.cfg tr = .error (.illegalEvent ev) ∧
      execIllegal ev { s with inbox := rest } = .next t) := by
  unfold step fetch at h
  rcases hb : s.inbox with _ | ⟨tr, rest⟩
  · rw [hb] at h
    exact .inl ⟨rfl, by simpa [idle] using h.symm⟩
  · rw [hb] at h
    simp only at h
    rcases hd : decode s.cfg tr with (⟨ev⟩ | ⟨ev⟩) | i
    · rw [hd] at h
      exact .inr (.inr ⟨tr, rest, ev, rfl, hd, h⟩)
    · rw [hd] at h
      cases h
    · rw [hd] at h
      exact .inr (.inl ⟨tr, rest, i, rfl, hd, h⟩)

end Sys2Proof.Machine
end

