-- ==== Sys2Proof/Laws/PerInstr.lean ====
section
/-! SUPPORT. The family BusShape: the transaction of an instruction carries the event word of its row, and for a
well-formed instruction as many operand bytes as the format of that row takes (30_encoding.md R70, R77). -/

namespace Sys2Proof.Laws.BusShape

/-- What BusShape says of one instruction. -/
def Statement (i : Instr) : Prop :=
  opOfWord (encode i).ev = some i.op ∧
  ∀ c : Config, i.wellFormed c = true → (encode i).operand.length = i.op.format.operandBytes c

theorem aInit : Statement .aInit := ⟨rfl, fun _ _ => rfl⟩

theorem aSend (pay : List Byte) : Statement (.aSend pay) :=
  ⟨rfl, fun _ h => by simpa [Instr.wellFormed, encode, operandOf, Instr.op, Op.format, Format.operandBytes] using h⟩

theorem packetOperand {c : Config} {p : Packet} (h : p.wellFormed c = true) :
    (bytesOfPacket p).length = Format.operandBytes c .packet := by
  have : p.payload.length = c.L := by simpa [Packet.wellFormed] using h
  simp [Format.operandBytes, this]

theorem aRx (pkt : Packet) : Statement (.aRx pkt) := ⟨rfl, fun _ h => packetOperand h⟩

theorem aTimeout : Statement .aTimeout := ⟨rfl, fun _ _ => rfl⟩

theorem ckCompute (pkt : Packet) : Statement (.ckCompute pkt) := ⟨rfl, fun _ h => packetOperand h⟩

theorem ckVerify (pkt : Packet) : Statement (.ckVerify pkt) := ⟨rfl, fun _ h => packetOperand h⟩

theorem bInit : Statement .bInit := ⟨rfl, fun _ _ => rfl⟩

theorem bRx (pkt : Packet) : Statement (.bRx pkt) := ⟨rfl, fun _ h => packetOperand h⟩

end Sys2Proof.Laws.BusShape
end

