-- ==== Sys2Proof/Laws/Positions.lean ====
section
/-! SUPPORT. The window by position (10_state.md R24): distinct positions are distinct slots, and what sending, tagging
and sliding leave at each position. -/

namespace Sys2Proof.Machine

variable {c : Config} {a : Sender}

theorem indexOf_lt (hw : 0 < c.W) (j : Nat) : a.indexOf c j < c.W := Nat.mod_lt _ hw

/-- Distinct positions of the window are distinct slots. -/
theorem indexOf_inj {i j : Nat} (hi : i < c.W) (hj : j < c.W) (h : a.indexOf c i = a.indexOf c j) : i = j := by
  have := Nat.ModEq.add_left_cancel' a.first (show a.first + i ≡ a.first + j [MOD c.W] from h)
  rwa [Nat.ModEq, Nat.mod_eq_of_lt hi, Nat.mod_eq_of_lt hj] at this

theorem indexOf_zero (h : a.first < c.W) : a.indexOf c 0 = a.first := by
  simp [Sender.indexOf, Nat.mod_eq_of_lt h]

/-- The oldest slot is the one at position 0. -/
theorem slotPos_zero (h : a.first < c.W) : a.slotPos c 0 = a.slotAt a.first := by
  rw [Sender.slotPos, indexOf_zero h]

theorem lo_eq_slotPos (h : a.first < c.W) : a.lo = sint (a.slotPos c 0).pkt.seqnum := by
  rw [slotPos_zero h, Sender.lo]

/-- The slot that the next A.SEND fills is at position `A.count`. -/
theorem next_index (h : WindowInv c a) : (a.last + 1) % c.W = a.indexOf c a.count := by
  have hw := h.addressable.1
  rw [h.last_eq, Sender.indexOf, Nat.mod_add_mod,
    show a.first + a.count + (c.W - 1) + 1 = a.first + a.count + c.W by omega, Nat.add_mod_right]

/-- The newest slot is at position `A.count - 1`. -/
theorem last_index (h : WindowInv c a) (hp : 0 < a.count) : a.last = a.indexOf c (a.count - 1) := by
  have hw := h.addressable.1
  rw [h.last_eq, Sender.indexOf,
    show a.first + a.count + (c.W - 1) = a.first + (a.count - 1) + c.W by omega, Nat.add_mod_right]

/-- A.SEND writes the position `A.count` and leaves every other. -/
theorem acceptSend_slotPos (h : WindowInv c a) (hW : a.count < c.W) (pay : List Byte) {j : Nat} (hj : j < c.W) :
    (acceptSend c pay a).1.slotPos c j =
      if j = a.count then ⟨.inflight, mkpkt c (word a.nextseq) c.NOTINUSE pay⟩ else a.slotPos c j := by
  have hix : ∀ i, (acceptSend c pay a).1.indexOf c i = a.indexOf c i := fun _ => rfl
  rw [Sender.slotPos, hix]
  change (Sender.setSlot _ _ _).slotAt _ = _
  split
  next he =>
    rw [he, ← next_index h]
    exact slotAt_setSlot_self _ _ _ (by simp [h.addressable.2.1, Nat.mod_lt _ h.addressable.1])
  next he =>
    rw [next_index h, slotAt_setSlot_ne _ _ _ _ fun e => he (indexOf_inj hW hj e).symm]
    rfl

/-- Tagging the slot at position `j` changes the tag there and nothing else. -/
theorem setTag_slotPos (h : WindowInv c a) {j : Nat} (hj : j < c.W) (t : SlotTag) {i : Nat} (hi : i < c.W) :
    (a.setTag (a.indexOf c j) t).slotPos c i = if i = j then ⟨t, (a.slotPos c j).pkt⟩ else a.slotPos c i := by
  have hix : (a.setTag (a.indexOf c j) t).indexOf c i = a.indexOf c i := rfl
  rw [Sender.slotPos, hix]
  split
  next he =>
    rw [he, slotAt_setTag_self _ _ _ (by rw [h.addressable.2.1]; exact indexOf_lt h.addressable.1 _)]
    rfl
  next he =>
    rw [slotAt_setTag_ne _ _ _ _ fun e => he (indexOf_inj hj hi e).symm]
    rfl

/-- A slide by `n` moves every position down by `n`; the `n` oldest slots come last, EMPTY. -/
theorem slide_slotPos (h : WindowInv c a) {n : Nat} (hn : n ≤ a.count) {b : Sender}
    (hb : b = { a with
      buf := (clearOldest c n a).buf, first := (a.first + n) % c.W, count := a.count - n, trail := 0 })
    {j : Nat} (hj : j < c.W) :
    b.slotPos c j =
      if n + j < c.W then a.slotPos c (n + j) else ⟨.empty, (a.slotPos c (n + j - c.W)).pkt⟩ := by
  have hw := h.addressable.1
  have hc := h.count_le
  have hix : b.indexOf c j = a.indexOf c (n + j) := by
    rw [hb, Sender.indexOf, Sender.indexOf, Nat.mod_add_mod, Nat.add_assoc]
  have hbs : ∀ i, b.slotAt i = (clearOldest c n a).slotAt i := fun i => by simp [Sender.slotAt, hb]
  rw [Sender.slotPos, hix, hbs]
  split
  next hlt =>
    rw [clearOldest_slotAt_of_ne _ _ _ _ fun i hi e => by
      have := indexOf_inj (a := a) (show i < c.W by omega) hlt e
      omega]
    rfl
  next hge =>
    have e : a.indexOf c (n + j) = a.indexOf c (n + j - c.W) := by
      rw [Sender.indexOf, Sender.indexOf, show a.first + (n + j) = a.first + (n + j - c.W) + c.W by omega,
        Nat.add_mod_right]
    have ht := clearOldest_slotAt_tag c n (n + j - c.W) a hw h.addressable.2.1 (by omega)
    have hp := clearOldest_slotAt_pkt c n (a.indexOf c (n + j - c.W)) a
    rw [e, Sender.slotPos, ← ht, ← hp]

end Sys2Proof.Machine
end

