-- ==== Sys2Proof/Tests/Slice0.lean ====
section
/-! SUPPORT. The model's own tests, their expected values from spec/95_test_vectors.md and spec/30_encoding.md, and for
each statement of Certificates/Slice0/Obligations.lean a witness that meets its hypotheses. -/

namespace Sys2Proof.Tests

open Sys2Proof.Machine

/-! ### Helpers -/

/-- The next state of an answer. -/
def nextOf : Answer → Option State
  | .next t => some t
  | .fault _ => none
  | .refused _ => none

/-- The response that an answer leaves. -/
def respOf (x : Answer) : Option Response := (nextOf x).bind State.resp

/-- `msg(c)` under the reference instance. -/
def msg (b : Byte) : List Byte := List.replicate 20 b

/-- The acknowledgment `{b, k, fill(0x30), b + k + 960}` of 95_test_vectors.md. -/
def ack (b k : Int) : Packet := ⟨word b, word k, msg 0x30#8, word (b + k + 960)⟩

/-- The data packet `{s, -1, msg(c), s - 1 + 20 * code(c)}` of 95_test_vectors.md. -/
def data (s : Nat) (b : Byte) : Packet := ⟨word s, 0xFFFFFFFF#32, msg b, word (s - 1 + 20 * b.toNat)⟩

/-- An initialised state whose window is given by its cursors, its next sequence number, lastACK and its slots. -/
def live (c : Config) (first last count nextseq : Nat) (la : Option Nat) (buf : List Slot) : State :=
  { State.powerOn c with
    a := { Sender.powerOn c with
      init := true
      first := first
      last := last
      count := count
      nextseq := nextseq
      lastack_v := la.isSome
      lastack := la.getD 0
      buf := buf }
    b := initReceiver c
    timer := ⟨decide (0 < count), c.RTT⟩ }

/-- The reset state of 95_test_vectors.md: both endpoints initialised. -/
def ready : State := live Config.reference 0 5 0 0 none (List.replicate 6 ⟨.empty, zeroPacket 20⟩)

/-- Six packets in flight, 0 to 5. -/
def sixInFlight : State :=
  live Config.reference 0 5 6 6 none
    ((List.range 6).map fun i => ⟨.inflight, data i (BitVec.ofNat 8 (65 + i))⟩)

/-- The state before vector S14: 0 to 3 sent, 1 and 2 ACKED, lastACK 2. -/
def beforeSlide : State :=
  live Config.reference 0 3 4 4 (some 2)
    ([⟨.inflight, data 0 0x41#8⟩, ⟨.acked, data 1 0x42#8⟩, ⟨.acked, data 2 0x43#8⟩, ⟨.inflight, data 3 0x44#8⟩] ++
      List.replicate 2 ⟨.empty, zeroPacket 20⟩)

/-- The wrap state of 95_test_vectors.md section 3. -/
def wrapped : State :=
  live Config.reference 1 0 6 1 (some 6)
    [⟨.inflight, data 0 0x4D#8⟩, ⟨.inflight, data 7 0x48#8⟩, ⟨.inflight, data 8 0x49#8⟩, ⟨.inflight, data 9 0x4A#8⟩,
      ⟨.inflight, data 10 0x4B#8⟩, ⟨.inflight, data 11 0x4C#8⟩]

/-! ### Well-formedness refuses an ill-formed operand -/

theorem test_wf_aSend_short : (Instr.aSend (List.replicate 19 0#8)).wellFormed Config.reference = false := by decide
theorem test_wf_aSend_long : (Instr.aSend (List.replicate 21 0#8)).wellFormed Config.reference = false := by decide
theorem test_wf_aRx : (Instr.aRx ⟨0#32, 0#32, List.replicate 19 0#8, 0#32⟩).wellFormed Config.reference = false := by
  decide
theorem test_wf_ckCompute : (Instr.ckCompute ⟨0#32, 0#32, [], 0#32⟩).wellFormed Config.reference = false := by decide
theorem test_wf_ckVerify : (Instr.ckVerify ⟨0#32, 0#32, List.replicate 21 0#8, 0#32⟩).wellFormed Config.reference =
    false := by decide
theorem test_wf_bRx : (Instr.bRx ⟨0#32, 0#32, List.replicate 19 0#8, 0#32⟩).wellFormed Config.reference = false := by
  decide

/-! ### Decoding, from the opcode map of 30_encoding.md R77 and the serialisations of 95_test_vectors.md section 0 -/

/-- `00 00 00 00 | FF FF FF FF | 41 x 20 | 13 05 00 00`. -/
def dataBytes : List Byte :=
  [0x00#8, 0x00#8, 0x00#8, 0x00#8, 0xFF#8, 0xFF#8, 0xFF#8, 0xFF#8] ++ msg 0x41#8 ++ [0x13#8, 0x05#8, 0x00#8, 0x00#8]

/-- `01 00 00 00 | 00 00 00 00 | 30 x 20 | C1 03 00 00`. -/
def ackBytes : List Byte :=
  [0x01#8, 0x00#8, 0x00#8, 0x00#8, 0x00#8, 0x00#8, 0x00#8, 0x00#8] ++ msg 0x30#8 ++ [0xC1#8, 0x03#8, 0x00#8, 0x00#8]

theorem test_decode_aInit : decode Config.reference ⟨0b0000#4, []⟩ = .ok .aInit := by rfl
theorem test_decode_aSend : decode Config.reference ⟨0b0001#4, msg 0x41#8⟩ = .ok (.aSend (msg 0x41#8)) := by rfl
theorem test_decode_aRx : decode Config.reference ⟨0b0010#4, ackBytes⟩ =
    .ok (.aRx ⟨1#32, 0#32, msg 0x30#8, 961#32⟩) := by rfl
theorem test_decode_aTimeout : decode Config.reference ⟨0b0011#4, []⟩ = .ok .aTimeout := by rfl
theorem test_decode_ckCompute : decode Config.reference ⟨0b0100#4, dataBytes⟩ =
    .ok (.ckCompute ⟨0#32, 0xFFFFFFFF#32, msg 0x41#8, 1299#32⟩) := by rfl
theorem test_decode_ckVerify : decode Config.reference ⟨0b0101#4, ackBytes⟩ =
    .ok (.ckVerify ⟨1#32, 0#32, msg 0x30#8, 961#32⟩) := by rfl
theorem test_decode_bInit : decode Config.reference ⟨0b1000#4, []⟩ = .ok .bInit := by rfl
theorem test_decode_bRx : decode Config.reference ⟨0b1010#4, dataBytes⟩ =
    .ok (.bRx ⟨0#32, 0xFFFFFFFF#32, msg 0x41#8, 1299#32⟩) := by rfl

/-- The eight words of R79 are no event, whatever the operand. -/
theorem test_decode_illegal : ∀ ev ∈ [0x6#4, 0x7#4, 0x9#4, 0xB#4, 0xC#4, 0xD#4, 0xE#4, 0xF#4], opOfWord ev = none := by
  decide

/-- Every word of the map has the side and the operation that its row says (R70, R77). -/
theorem test_word_fields :
    [Op.aInit, .aSend, .aRx, .aTimeout, .ckCompute, .ckVerify, .bInit, .bRx].map (fun o => (evSide o.word, evOp o.word)) =
      [(false, 0b000#3), (false, 0b001#3), (false, 0b010#3), (false, 0b011#3), (false, 0b100#3), (false, 0b101#3),
        (true, 0b000#3), (true, 0b010#3)] := by decide

/-- The table's numbering: bits 3..0 are the event word, the operand's bits count on from 4. -/
theorem test_decodeTableWord : decodeTableWord 12 0x411 = some (.aSend (0x41#8 :: List.replicate 19 0#8)) := by rfl

/-- The very next step runs the placed event. -/
theorem test_withFetchWord : step (State.reset.withFetchWord 4 0x8) = exec .bInit State.reset := by rfl

/-! ### Codes -/

theorem test_result_codes : [ResultCode.initDone, .sendOk, .sendFull, .ackCorrupt, .ackDup, .ackStale, .ackSack, .ackSlide,
    .toRetx, .toIgnored, .rxCorrupt, .rxNew, .rxDup, .ckDone, .faulted].map ResultCode.code =
    [0x0#4, 0x1#4, 0x2#4, 0x3#4, 0x4#4, 0x5#4, 0x6#4, 0x7#4, 0x8#4, 0x9#4, 0xA#4, 0xB#4, 0xC#4, 0xD#4, 0xE#4] := by decide

theorem test_fault_bits : [FaultCause.illegalEvent, .notInit, .reinit, .config, .rxSeqRange].map FaultCause.mask =
    [0x01#8, 0x02#8, 0x04#8, 0x08#8, 0x10#8] := by decide

theorem test_action_codes :
    [Action.tx .a (zeroPacket 0), .deliver .b [], .tstart .a 0, .tstop .a].map (fun x => (x.kind, x.endpoint.code)) =
      [(0, 0), (1, 1), (2, 0), (3, 0)] := by decide

theorem test_tag_codes : [SlotTag.empty, .inflight, .acked].map SlotTag.code = [0#2, 1#2, 2#2] := by decide

/-- 10_state.md R25: full is blocked, one slot less is not. -/
theorem test_controlState : controlState Config.reference sixInFlight.a = .blocked ∧
    controlState Config.reference { sixInFlight.a with count := 5 } = .idleWithRoom := by decide

/-! ### One step each, from 95_test_vectors.md -/

/-- F12: `A.INIT` from power-on; `A.last = W - 1`. -/
theorem test_aInit_values : (nextOf (exec .aInit State.reset)).map
    (fun t => (t.a.init, t.a.last, t.a.count, t.a.lastack_v, t.a.buf.map Slot.tag)) =
    some (true, 5, 0, false, List.replicate 6 .empty) := by decide

/-- F9: `S = 10` and `NOTINUSE = 3` violate clauses 2 and 4; the first is reported. -/
theorem test_aInit_config : (nextOf (exec .aInit (State.powerOn { Config.reference with S := 10, NOTINUSE := 3#32 }))).map
    State.fault = some ⟨0x08#8, some ⟨0x0#4, 2#32⟩⟩ := by decide

/-- S1. -/
theorem test_aSend_first : respOf (exec (.aSend (msg 0x41#8)) ready) =
    some ⟨.sendOk, true, 0#32, false, [.tx .a ⟨0#32, 0xFFFFFFFF#32, msg 0x41#8, 1299#32⟩, .tstart .a 16]⟩ := by decide

/-- S4: `A.nextseq` wraps from 11 to 0, and no timer action follows in a window that is not empty. -/
theorem test_aSend_wraps : (nextOf (exec (.aSend (msg 0x4C#8))
    (live Config.reference 0 0 1 11 none (⟨.inflight, data 10 0x4B#8⟩ :: List.replicate 5 ⟨.empty, zeroPacket 20⟩)))).map
    (fun t => (t.a.nextseq, t.chanAB, t.resp.map fun r => r.out.length)) =
    some (0, [⟨11#32, 0xFFFFFFFF#32, msg 0x4C#8, 1530#32⟩], some 1) := by decide

/-- S14: a consolidated slide by 3. -/
theorem test_aRx_slides : (nextOf (exec (.aRx (ack 1 0)) beforeSlide)).map
    (fun t => ([t.a.first, t.a.last, t.a.count, t.a.nextseq, t.a.lastack], t.a.buf.map Slot.tag, t.resp.map Response.out)) =
    some ([3, 3, 1, 4, 0], [.empty, .empty, .empty, .inflight, .empty, .empty],
      some [.tstop .a, .tstart .a 17]) := by decide

/-- S18: the selective acknowledgment of 11 tags slot 5, across the ring. -/
theorem test_aRx_marks : (nextOf (exec (.aRx (ack 0 11)) wrapped)).map
    (fun t => (t.a.lastack, t.a.buf.map Slot.tag, t.resp.map Response.res)) =
    some (11, [.inflight, .inflight, .inflight, .inflight, .inflight, .acked], some .ackSack) := by decide

/-- S21. -/
theorem test_aTimeout_retransmits : respOf (exec .aTimeout sixInFlight) =
    some ⟨.toRetx, false, 0#32, false, [.tx .a ⟨0#32, 0xFFFFFFFF#32, msg 0x41#8, 1299#32⟩, .tstart .a 17]⟩ := by decide

/-- S20: a spurious expiry with an empty window. -/
theorem test_aTimeout_ignored : nextOf (exec .aTimeout ready) =
    some { ready with resp := some ⟨.toIgnored, false, 0#32, false, []⟩ } := by decide

/-- I7: the sum wraps past 2^32. -/
theorem test_ckCompute_wraps : respOf (exec (.ckCompute ⟨0x7FFFFFFF#32, 0x7FFFFFFF#32, msg 0xFF#8, 0#32⟩) State.reset) =
    some ⟨.ckDone, false, 5098#32, false, []⟩ := by decide

/-- I5 with `BYTE_SIGN = SIGNED`. -/
theorem test_ckCompute_signed : respOf (exec (.ckCompute ⟨11#32, 0xFFFFFFFF#32, msg 0xFF#8, 0#32⟩)
    (State.powerOn { Config.reference with BYTE_SIGN := .signed })) =
    some ⟨.ckDone, false, 0xFFFFFFF6#32, false, []⟩ := by decide

/-- I10: the checksum field alone. -/
theorem test_ckVerify_corrupt : respOf (exec (.ckVerify ⟨0#32, 0xFFFFFFFF#32, msg 0x41#8, 1300#32⟩) State.reset) =
    some ⟨.ckDone, false, 0#32, true, []⟩ := by decide

/-- I13: swapped payload bytes are undetected. -/
theorem test_ckVerify_swapped : respOf (exec (.ckVerify ⟨0#32, 0#32, 2#8 :: 1#8 :: List.replicate 18 0#8, 3#32⟩)
    State.reset) = some ⟨.ckDone, false, 0#32, false, []⟩ := by decide

/-- F12: `B.INIT` after power-on. -/
theorem test_bInit_values : (nextOf (exec .bInit State.reset)).map State.b =
    some ⟨true, List.replicate 12 false, 1#1⟩ := by decide

/-- F8: `W = 0`. -/
theorem test_bInit_config : (nextOf (exec .bInit (State.powerOn { Config.reference with W := 0 }))).map State.fault =
    some ⟨0x08#8, some ⟨0x8#4, 1#32⟩⟩ := by decide

/-- R1. -/
theorem test_bRx_fresh : (nextOf (exec (.bRx (data 0 0x41#8)) ready)).map (fun t => (t.b.dlv[0]?, t.b.nseq, t.resp)) =
    some (some true, 0#1, some ⟨.rxNew, false, 0#32, false,
      [.deliver .b (msg 0x41#8), .tx .b ⟨1#32, 0#32, msg 0x30#8, 961#32⟩]⟩) := by decide

/-- R6: an uncorrupted packet with a negative sequence number. -/
theorem test_bRx_range : (nextOf (exec (.bRx ⟨0xFFFFFFFF#32, 0xFFFFFFFF#32, msg 0x41#8, 1298#32⟩) ready)).map State.fault =
    some ⟨0x10#8, some ⟨0xA#4, 0xFFFFFFFF#32⟩⟩ := by decide

/-- F4: an illegal word, with an operand that no format takes. -/
theorem test_step_illegal : (nextOf (step { State.reset with inbox := [⟨0x9#4, [1#8]⟩] })).map State.fault =
    some ⟨0x01#8, some ⟨0x9#4, 0#32⟩⟩ := by decide

/-! ### The event text, lines of 95_test_vectors.md -/

theorem test_text_aSend : assembleLine Config.reference [] "A.SEND msg('A') ; S1".toList = some (.aSend (msg 0x41#8)) := by
  decide
theorem test_text_aRxAck : assembleLine Config.reference [] "A.RXACK 0, -1".toList =
    some (.aRx ⟨0#32, 0xFFFFFFFF#32, msg 0x30#8, 959#32⟩) := by decide
theorem test_text_ckCompute : assembleLine Config.reference []
    ("CK.COMPUTE ".toList ++ [openBrace] ++ "seq=0x7FFFFFFF, ack=1, pl=fill(0x00), cs=0".toList ++ [closeBrace]) =
    some (.ckCompute ⟨0x7FFFFFFF#32, 1#32, msg 0#8, 0#32⟩) := by decide

/-! ### Witnesses: for each statement with hypotheses, a state and operands that meet them -/

/-- A small instance. -/
def tiny : Config := { Config.reference with W := 3, S := 6, RTT := 3, L := 1 }

/-- The small instance in which no spurious expiry may be presented. -/
def strict : Config := { tiny with SPURIOUS_TIMEOUT := false }

/-- A slot as A.SEND writes it. -/
def sent (c : Config) (t : SlotTag) (s : Nat) : Slot := ⟨t, mkpkt c (word s) c.NOTINUSE [0x41#8]⟩

/-- Both endpoints initialised, nothing in flight. -/
def idleWindow : State := live tiny 0 2 0 0 none (List.replicate 3 ⟨.empty, zeroPacket 1⟩)

/-- One packet in flight, in slot 1; the number 2. -/
def oneSent : State := live tiny 1 1 1 3 (some 1) [⟨.empty, zeroPacket 1⟩, sent tiny .inflight 2, ⟨.empty, zeroPacket 1⟩]

/-- A full window that wraps both the ring and the sequence space: 4, 5, 0 from slot 1 on. -/
def fullWindow (t5 t0 : SlotTag) (la : Nat) : State :=
  live tiny 1 0 3 1 (some la) [sent tiny t0 0, sent tiny .inflight 4, sent tiny t5 5]

/-- An acknowledgment under the small instance. -/
def tinyAck (k : Nat) : Packet := ackPacket tiny 0 k

/-- A data packet under the small instance. -/
def tinyData (s : Nat) : Packet := dataPacket tiny s [0x41#8]

/-- A state of the small instance that has faulted, with an illegal word presented next. -/
def faulted : State :=
  { oneSent with fault := ⟨0x04#8, some ⟨0x8#4, 0#32⟩⟩, inbox := [⟨0x9#4, []⟩] }

/-- The state that presenting one event leaves. -/
def after (i : Instr) (s : State) : State := ((nextOf (step { s with inbox := [encode i] })).getD s)

theorem tiny_valid : ValidConfig tiny := by
  refine ⟨by decide, by decide, by decide, by decide, by decide, ?_, by decide, by decide⟩
  intro k h
  cases h

theorem idleWindow_ready : SenderReady idleWindow := ⟨by decide, by decide, by decide⟩
theorem oneSent_ready : SenderReady oneSent := ⟨by decide, by decide, by decide⟩
theorem fullWindow_ready : SenderReady (fullWindow .inflight .acked 0) := ⟨by decide, by decide, by decide⟩
theorem idleWindow_receiver : ReceiverReady idleWindow := ⟨by decide, by decide, by decide⟩

theorem fullWindow_window : WindowInv tiny (fullWindow .acked .inflight 5).a :=
  ⟨by decide, by decide, by decide, by decide, by decide, by decide, by decide⟩

theorem fullWindow_seq : SeqInv tiny (fullWindow .acked .inflight 5).a :=
  ⟨by decide, by decide, by decide, by decide, by decide, by decide, by decide⟩

theorem fullWindow_inv : SenderInv (fullWindow .acked .inflight 5) :=
  fun _ => ⟨tiny_valid, fullWindow_window, fullWindow_seq⟩

theorem oneSent_inv : SenderInv oneSent := fun _ =>
  ⟨tiny_valid, ⟨by decide, by decide, by decide, by decide, by decide, by decide, by decide⟩,
    ⟨by decide, by decide, by decide, by decide, by decide, by decide, by decide⟩⟩

theorem witness_DecodeEncodeIsIdentity : (Instr.aSend [0x41#8]).wellFormed tiny = true ∧
    (Instr.bRx (tinyData 5)).wellFormed tiny = true := by decide

theorem witness_EncodeDecodeIsIdentity : decode tiny ⟨0x1#4, [0xFF#8]⟩ = .ok (.aSend [0xFF#8]) := by rfl

theorem witness_IllegalWordsRaiseFault :
    (({ State.reset with inbox := [⟨0x6#4, [1#8]⟩] } : State).inbox = ⟨0x6#4, [1#8]⟩ :: [] ∧
      State.reset.fault.reg = 0#8 ∧ 0x6#4 ∈ [0x9#4, 0xB#4, 0x6#4, 0x7#4, 0xC#4, 0xD#4, 0xE#4, 0xF#4] ∧
      0xF#4 ∈ [0x9#4, 0xB#4, 0x6#4, 0x7#4, 0xC#4, 0xD#4, 0xE#4, 0xF#4]) ∧
    0x0#4 ∉ [0x9#4, 0xB#4, 0x6#4, 0x7#4, 0xC#4, 0xD#4, 0xE#4, 0xF#4] ∧
    0xA#4 ∉ [0x9#4, 0xB#4, 0x6#4, 0x7#4, 0xC#4, 0xD#4, 0xE#4, 0xF#4] := by decide

theorem witness_StepRunsTheDecodedEvent_decoded :
    ({ oneSent with inbox := [⟨0x1#4, [0x42#8]⟩] } : State).inbox = ⟨0x1#4, [0x42#8]⟩ :: [] ∧
    decode oneSent.cfg ⟨0x1#4, [0x42#8]⟩ = .ok (.aSend [0x42#8]) := ⟨rfl, rfl⟩

theorem witness_StepRunsTheDecodedEvent_idle : idleWindow.inbox = [] := rfl

theorem witness_StepRunsTheDecodedEvent_shape : opOfWord 0x1#4 = some .aSend ∧
    ([] : List Byte).length ≠ Op.aSend.format.operandBytes tiny := by decide

theorem witness_FaultedBlockAnswersFaulted : faulted.fault.reg ≠ 0#8 ∧ faulted.expiryAllowed ∧
    faulted.inbox = ⟨0x9#4, []⟩ :: [] ∧ opOfWord 0x9#4 = none := by decide

theorem witness_FaultIsNeverCleared : faulted.fault.reg ≠ 0#8 ∧ ∃ t, step faulted = .next t :=
  ⟨by decide, _, rfl⟩

theorem witness_FaultRecordInvKept : FaultInv faulted ∧ (∃ t, step faulted = .next t) ∧ FaultInv idleWindow :=
  ⟨.inr ⟨.reinit, _, rfl, rfl⟩, ⟨_, rfl⟩, .inl ⟨rfl, rfl⟩⟩

theorem witness_EventBeforeInitRaisesNotInit : (State.powerOn tiny).fault.reg = 0#8 ∧
    (State.powerOn tiny).a.init = false ∧ (State.powerOn tiny).b.init = false ∧ (State.powerOn tiny).expiryAllowed := by
  decide

theorem witness_SecondInitRaisesReinit : idleWindow.fault.reg = 0#8 ∧ idleWindow.a.init = true ∧
    idleWindow.b.init = true := by decide

/-- A configuration for each clause of R7, at the boundary of the clause, with every earlier clause met. -/
theorem witness_FirstViolatedClauseIsFirst :
    (¬ 1 ≤ { tiny with W := 0 }.W) ∧
    (1 ≤ tiny.W ∧ ¬ 2 * tiny.W ≤ { tiny with S := 5 }.S) ∧
    (2 * tiny.W ≤ 2 ^ 31 + 1 ∧ ¬ { tiny with S := 2 ^ 31 + 1 }.S ≤ 2 ^ 31) ∧
    inSeqSpace { tiny with NOTINUSE := 5#32 } (sint 5#32) ∧
    (¬ inSeqSpace tiny (sint tiny.NOTINUSE) ∧ ¬ (2 = 0 ∨ 2 = 1)) ∧
    (¬ inSeqSpace { tiny with LASTACK_RESET := some 6 } 6 ∧ ¬ inSeqSpace { tiny with LASTACK_RESET := some (-1) } (-1)) ∧
    (inSeqSpace { tiny with LASTACK_RESET := some 5, L := 0 } 5 ∧ ¬ 1 ≤ { tiny with L := 0 }.L) ∧
    (1 ≤ tiny.L ∧ ¬ { tiny with RTT := 2 ^ 32 - 1 }.RTT + 1 ≤ 2 ^ 32 - 1) := by decide

theorem witness_SenderInitSetsResetValues :
    (idleWindow.fault.reg = 0#8 ∧ idleWindow.a.init = true) ∧
    ((State.powerOn { tiny with W := 0 }).a.init = false ∧ firstViolatedClause { tiny with W := 0 } ≠ 0) ∧
    (State.powerOn tiny).a.init = false ∧ ValidConfig (State.powerOn tiny).cfg :=
  ⟨by decide, by decide, by decide, tiny_valid⟩

theorem witness_ReceiverInitSetsResetValues :
    (idleWindow.fault.reg = 0#8 ∧ idleWindow.b.init = true) ∧
    ((State.powerOn { tiny with L := 0 }).b.init = false ∧ firstViolatedClause { tiny with L := 0 } ≠ 0) ∧
    (State.powerOn tiny).b.init = false ∧ ValidConfig (State.powerOn tiny).cfg :=
  ⟨by decide, by decide, by decide, tiny_valid⟩

theorem witness_ChecksumIsTheSum : tiny.BYTE_SIGN = .unsigned ∧ { tiny with BYTE_SIGN := .signed }.BYTE_SIGN = .signed ∧
    isCorrupted tiny { tinyData 5 with checksum := 0#32 } = true := by decide

theorem witness_SingleFieldChangeIsDetected : isCorrupted Config.reference (data 0 0x41#8) = false ∧
    1#32 ≠ (data 0 0x41#8).seqnum ∧ 0#32 ≠ (data 0 0x41#8).acknum ∧ 0#32 ≠ (data 0 0x41#8).checksum ∧
    (data 0 0x41#8).payload[19]? = some 0x41#8 ∧ 0#8 ≠ 0x41#8 := by decide

theorem witness_CancellingChangesAreUndetected : isCorrupted Config.reference (data 0 0x41#8) = false ∧
    (data 0 0x41#8).payload[0]? = some 0x41#8 ∧ (data 0 0x41#8).payload[19]? = some 0x41#8 ∧
    ext8 Config.reference 0x42#8 = ext8 Config.reference 0x41#8 + 1#32 ∧
    ext8 Config.reference 0x40#8 = ext8 Config.reference 0x41#8 - 1#32 ∧
    (data 1 0x41#8).checksum - (data 0 0x41#8).checksum =
      computeChecksum Config.reference (data 1 0x41#8) - computeChecksum Config.reference (data 0 0x41#8) := by decide

theorem witness_ComputeReturnsTheChecksum : State.reset.fault.reg = 0#8 := rfl

theorem witness_VerifyReturnsTheCorruptionTest : oneSent.fault.reg = 0#8 := rfl

theorem witness_SendIsAcceptedIffThereIsRoom : (SenderReady idleWindow ∧ idleWindow.a.count < idleWindow.cfg.W) ∧
    (SenderReady oneSent ∧ oneSent.a.count < oneSent.cfg.W) ∧
    (SenderReady (fullWindow .inflight .acked 0) ∧
      (fullWindow .inflight .acked 0).cfg.W ≤ (fullWindow .inflight .acked 0).a.count) :=
  ⟨⟨idleWindow_ready, by decide⟩, ⟨oneSent_ready, by decide⟩, fullWindow_ready, by decide⟩

theorem witness_AckDiscardsCountOnly_corrupt : SenderReady oneSent ∧
    isCorrupted oneSent.cfg { tinyAck 2 with checksum := 0#32 } = true := ⟨oneSent_ready, by decide⟩

theorem witness_AckDiscardsCountOnly_duplicate :
    (SenderReady idleWindow ∧ isCorrupted idleWindow.cfg (tinyAck 0) = false ∧ idleWindow.a.count = 0) ∧
    (SenderReady oneSent ∧ isCorrupted oneSent.cfg (tinyAck 1) = false ∧ oneSent.a.lastack_v = true ∧
      sint (tinyAck 1).acknum = (oneSent.a.lastack : Int)) :=
  ⟨⟨idleWindow_ready, by decide, by decide⟩, oneSent_ready, by decide, by decide, by decide⟩

theorem witness_AckDiscardsCountOnly_stale : SenderReady oneSent ∧ isCorrupted oneSent.cfg (tinyAck 3) = false ∧
    0 < oneSent.a.count ∧ ¬ (oneSent.a.lastack_v = true ∧ sint (tinyAck 3).acknum = (oneSent.a.lastack : Int)) ∧
    inRange oneSent.cfg oneSent.a (sint (tinyAck 3).acknum) = false :=
  ⟨oneSent_ready, by decide, by decide, by decide, by decide⟩

theorem witness_AckOfLaterSlotIsSelective : SenderReady (fullWindow .inflight .acked 0) ∧
    isCorrupted tiny (tinyAck 5) = false ∧ 0 < (fullWindow .inflight .acked 0).a.count ∧
    ¬ ((fullWindow .inflight .acked 0).a.lastack_v = true ∧
      sint (tinyAck 5).acknum = ((fullWindow .inflight .acked 0).a.lastack : Int)) ∧
    inRange tiny (fullWindow .inflight .acked 0).a (sint (tinyAck 5).acknum) = true ∧
    sint (tinyAck 5).acknum ≠ (fullWindow .inflight .acked 0).a.lo :=
  ⟨fullWindow_ready, by decide, by decide, by decide, by decide, by decide⟩

theorem witness_AckOfOldestSlotSlides : SenderReady (fullWindow .inflight .acked 0) ∧
    isCorrupted tiny (tinyAck 4) = false ∧ 0 < (fullWindow .inflight .acked 0).a.count ∧
    ¬ ((fullWindow .inflight .acked 0).a.lastack_v = true ∧
      sint (tinyAck 4).acknum = ((fullWindow .inflight .acked 0).a.lastack : Int)) ∧
    inRange tiny (fullWindow .inflight .acked 0).a (sint (tinyAck 4).acknum) = true ∧
    sint (tinyAck 4).acknum = (fullWindow .inflight .acked 0).a.lo :=
  ⟨fullWindow_ready, by decide, by decide, by decide, by decide, by decide⟩

theorem witness_TimeoutRetransmitsTheOldest :
    (SenderReady oneSent ∧ oneSent.expiryAllowed ∧ 0 < oneSent.a.count ∧
      (oneSent.a.slotAt oneSent.a.first).tag ≠ .acked) ∧
    (SenderReady idleWindow ∧ idleWindow.expiryAllowed ∧ idleWindow.a.count = 0) :=
  ⟨⟨oneSent_ready, by decide, by decide, by decide⟩, idleWindow_ready, by decide, by decide⟩

theorem witness_UnallowedExpiryIsRefused : (State.powerOn strict).timer.armed = false ∧
    (State.powerOn strict).cfg.SPURIOUS_TIMEOUT = false := by decide

theorem witness_UnaddressableArraysFault :
    (oneSent.fault.reg = 0#8 ∧ oneSent.a.init = true ∧
      ¬ Sender.windowAddressable oneSent.cfg { oneSent.a with first := 3 } ∧ oneSent.expiryAllowed) ∧
    (oneSent.b.init = true ∧ { oneSent.b with dlv := [] }.dlv.length ≠ oneSent.cfg.S) := by decide

theorem witness_RangeTestHasTwoCases :
    ((-1 : Int) < 0 ∧ (tiny.S : Int) ≤ 6) ∧ oneSent.a.lo ≤ oneSent.a.hi ∧
    (fullWindow .inflight .acked 0).a.hi < (fullWindow .inflight .acked 0).a.lo := by decide

theorem witness_RangeTestIsWindowMembership : ValidConfig tiny ∧ WindowInv tiny (fullWindow .acked .inflight 5).a ∧
    SeqInv tiny (fullWindow .acked .inflight 5).a ∧ 0 < (fullWindow .acked .inflight 5).a.count :=
  ⟨tiny_valid, fullWindow_window, fullWindow_seq, by decide⟩

theorem witness_SackIndexFindsTheSlot : ValidConfig tiny ∧ WindowInv tiny (fullWindow .acked .inflight 5).a ∧
    SeqInv tiny (fullWindow .acked .inflight 5).a ∧ 0 < (fullWindow .acked .inflight 5).a.count ∧
    inRange tiny (fullWindow .acked .inflight 5).a 0 = true ∧ 0 ≠ (fullWindow .acked .inflight 5).a.lo :=
  ⟨tiny_valid, fullWindow_window, fullWindow_seq, by decide, by decide, by decide⟩

/-- The number just slid past, 1, and with a full window the last number outside it, 1 again from 4, at the bound. -/
theorem witness_SlidPastNumberNeverSlides :
    (SenderReady oneSent ∧ SenderInv oneSent ∧ isCorrupted oneSent.cfg (tinyAck 1) = false ∧
      1 + oneSent.a.count ≤ oneSent.cfg.S ∧
      sint (tinyAck 1).acknum = (oneSent.a.base oneSent.cfg - (1 : Nat)) % (oneSent.cfg.S : Int)) ∧
    3 + (fullWindow .acked .inflight 5).a.count ≤ tiny.S ∧
      sint (tinyAck 1).acknum = ((fullWindow .acked .inflight 5).a.base tiny - (3 : Nat)) % (tiny.S : Int) :=
  ⟨⟨oneSent_ready, oneSent_inv, by decide, by decide, by decide⟩, by decide, by decide⟩

theorem witness_SlideConsolidatesAckedSlots : SenderReady (fullWindow .acked .inflight 5) ∧
    SenderInv (fullWindow .acked .inflight 5) ∧ isCorrupted tiny (tinyAck 4) = false ∧
    1 < (fullWindow .acked .inflight 5).a.count ∧
    ¬ ((fullWindow .acked .inflight 5).a.lastack_v = true ∧
      sint (tinyAck 4).acknum = ((fullWindow .acked .inflight 5).a.lastack : Int)) ∧
    sint (tinyAck 4).acknum = (fullWindow .acked .inflight 5).a.lo ∧
    (∀ j, 1 ≤ j → j ≤ 1 → ((fullWindow .acked .inflight 5).a.slotPos tiny j).tag = .acked) ∧
    ((fullWindow .acked .inflight 5).a.slotPos tiny (1 + 1)).tag ≠ .acked :=
  ⟨⟨by decide, by decide, by decide⟩, fullWindow_inv, by decide, by decide, by decide, by decide,
    fun j h1 h2 => by rw [Nat.le_antisymm h2 h1]; decide, by decide⟩

theorem witness_AckSeqnumAndPayloadAreIgnored : (tinyAck 2).acknum = (ackPacket tiny 1 2).acknum ∧
    isCorrupted tiny (tinyAck 2) = isCorrupted tiny (ackPacket tiny 1 2) ∧ tinyAck 2 ≠ ackPacket tiny 1 2 := by decide

theorem witness_TransmissionsComeFromSendAndTimeout :
    (∃ t r, exec (.aSend [0x42#8]) oneSent = .next t ∧ t.resp = some r ∧ r.res = .sendOk) ∧
    ∃ t r p, exec .aTimeout oneSent = .next t ∧ t.resp = some r ∧ .tx .a p ∈ r.out :=
  ⟨⟨_, _, rfl, rfl, rfl⟩, _, _, _, rfl, rfl, List.mem_cons_self⟩

theorem witness_ReceiveDeliversAndAcknowledges :
    ReceiverReady idleWindow ∧ isCorrupted idleWindow.cfg { tinyData 0 with checksum := 0#32 } = true ∧
    (isCorrupted idleWindow.cfg (tinyData 6) = false ∧ (idleWindow.cfg.S : Int) ≤ sint (tinyData 6).seqnum) ∧
    (isCorrupted tiny (dataPacket tiny (-1) [0x41#8]) = false ∧ sint (dataPacket tiny (-1) [0x41#8]).seqnum < 0) ∧
    (isCorrupted tiny (tinyData 5) = false ∧ 0 ≤ sint (tinyData 5).seqnum ∧
      sint (tinyData 5).seqnum < (tiny.S : Int) ∧ idleWindow.b.dlv[(sint (tinyData 5).seqnum).toNat]? = some false) ∧
    (idleWindow.b.record 0).dlv[(sint (tinyData 0).seqnum).toNat]? = some true :=
  ⟨idleWindow_receiver, by decide, by decide, by decide, by decide, by decide⟩

theorem witness_DataAcknumIsIgnored : (mkpkt tiny 3#32 0#32 [1#8]).seqnum = (mkpkt tiny 3#32 7#32 [1#8]).seqnum ∧
    (mkpkt tiny 3#32 0#32 [1#8]).payload = (mkpkt tiny 3#32 7#32 [1#8]).payload ∧
    isCorrupted tiny (mkpkt tiny 3#32 0#32 [1#8]) = isCorrupted tiny (mkpkt tiny 3#32 7#32 [1#8]) := by decide

/-- A step that delivers. -/
theorem witness_DeliveryRecordOnlyGrows : idleWindow.b.init = true ∧
    ∃ t, step { idleWindow with inbox := [encode (.bRx (tinyData 5))] } = .next t := ⟨rfl, _, rfl⟩

theorem witness_OneAcknowledgmentPerValidPacket : (∃ t, exec (.bRx (tinyData 5)) idleWindow = .next t) ∧
    ∃ t, exec .bInit idleWindow = .next t := ⟨⟨_, rfl⟩, _, rfl⟩

theorem witness_ReceiverInvKept : ReceiverInv idleWindow ∧
    ∃ t, step { idleWindow with inbox := [encode (.bRx (tinyData 0))] } = .next t :=
  ⟨⟨fun _ => ⟨tiny_valid, by decide, by decide⟩, fun h => by cases h⟩, _, rfl⟩

/-- The states after `A.INIT`, `B.INIT` and two sends, by which runs below begin. -/
def initialised : State := after .bInit (after .aInit (State.powerOn tiny))
def oneOut : State := after (.aSend [0x41#8]) initialised
def twoOut : State := after (.aSend [0x42#8]) oneOut

theorem reachable_after {c : Config} {s : State} {i : Instr} (h : Reachable c s)
    (hs : step { s with inbox := [encode i] } = .next (after i s)) : Reachable c (after i s) :=
  .step (.present _ h) hs

theorem initialised_reachable : Reachable tiny initialised :=
  reachable_after (reachable_after .powerOn rfl) rfl

theorem oneOut_reachable : Reachable tiny oneOut := reachable_after initialised_reachable rfl

theorem twoOut_reachable : Reachable tiny twoOut := reachable_after oneOut_reachable rfl

/-- A reachable state in which B has delivered a payload. -/
theorem witness_AtMostSPayloadsDelivered : Reachable tiny (after (.bRx (tinyData 0)) initialised) ∧
    (after (.bRx (tinyData 0)) initialised).delivered = [[0x41#8]] := ⟨reachable_after initialised_reachable rfl, rfl⟩

theorem witness_ReachableStatesAreInvariant : Reachable tiny twoOut ∧ twoOut.a.count = 2 := ⟨twoOut_reachable, rfl⟩

theorem witness_ResponseFieldsBelongToTheirEvents : (∃ t, exec (.ckCompute (tinyData 0)) oneSent = .next t) ∧
    (∃ t, exec (.ckVerify (tinyData 0)) oneSent = .next t) ∧ ∃ t, exec (.aSend [0#8]) oneSent = .next t :=
  ⟨⟨_, rfl⟩, ⟨_, rfl⟩, _, rfl⟩

theorem witness_ResultCodesBelongToTheirEvents :
    (∃ t r, exec (.aRx (tinyAck 2)) oneSent = .next t ∧ t.resp = some r ∧ r.res = .ackSlide) ∧
    (∃ t r, exec .aInit (State.powerOn tiny) = .next t ∧ t.resp = some r ∧ r.res = .initDone) :=
  ⟨⟨_, _, rfl, rfl, rfl⟩, _, _, rfl, rfl, rfl⟩

theorem witness_OutputsBelongToTheirUnit :
    ∃ t r, exec (.aRx (tinyAck 2)) oneSent = .next t ∧ t.resp = some r ∧ .tstop .a ∈ r.out :=
  ⟨_, _, rfl, rfl, List.mem_cons_self⟩

theorem witness_EndpointsShareNoState : (∃ t, exec (.aSend [1#8]) oneSent = .next t) ∧
    (∃ t, exec (.bRx (tinyData 1)) oneSent = .next t) ∧ ∃ t, exec (.ckVerify (tinyData 1)) oneSent = .next t :=
  ⟨⟨_, rfl⟩, ⟨_, rfl⟩, _, rfl⟩

theorem witness_ConfigurationAndInitFlagsPersist : (∃ t, exec .aInit (State.powerOn tiny) = .next t ∧ t.a.init = true) ∧
    ∃ t, exec .bInit (State.powerOn tiny) = .next t ∧ t.b.init = true := ⟨⟨_, rfl, rfl⟩, _, rfl, rfl⟩

theorem witness_CountersChangeOnlyByTheirEvents :
    ∃ t, exec (.aRx (tinyAck 1)) oneSent = .next t ∧ t.a.cnt_ackdup ≠ oneSent.a.cnt_ackdup := ⟨_, rfl, by decide⟩

theorem witness_LastAckChangesOnlyWhenAccepted :
    ∃ t, exec (.aRx (tinyAck 2)) oneSent = .next t ∧ t.a.lastack ≠ oneSent.a.lastack := ⟨_, rfl, by decide⟩

theorem witness_SenderInvKept : SenderInv (fullWindow .acked .inflight 5) ∧
    ∃ t, step { fullWindow .acked .inflight 5 with inbox := [encode (.aRx (tinyAck 4))] } = .next t :=
  ⟨fullWindow_inv, _, rfl⟩

theorem witness_TimerInvKept : SenderInv oneSent ∧ TimerInv oneSent ∧
    ∃ t, step { oneSent with inbox := [encode (.aRx (tinyAck 2))] } = .next t :=
  ⟨oneSent_inv, fun _ => by decide, _, rfl⟩

theorem tinyData_isData : IsDataPacket tiny (tinyData 2) := ⟨by decide, by decide, by decide, by decide⟩

theorem witness_ChannelInvKept : SenderInv oneSent ∧
    ChannelInv { oneSent with chanAB := [tinyData 2], chanBA := [tinyAck 5] } ∧
    ∃ t, step { oneSent with chanAB := [tinyData 2], chanBA := [tinyAck 5], inbox := [encode .aTimeout] } = .next t := by
  refine ⟨oneSent_inv, ⟨fun p hp => ?_, fun p hp => ?_⟩, _, rfl⟩
  · rw [List.mem_singleton.mp hp]
    exact tinyData_isData
  · rw [List.mem_singleton.mp hp]
    exact ⟨by decide, by decide, by decide, by decide⟩

/-- Both cases of the invariant: lastACK 5 is an ACKED slot's number, and lastACK 1 lies behind the window. -/
theorem witness_LastAckInvKept : tiny.LASTACK_RESET = none ∧
    (SenderInv (fullWindow .acked .inflight 5) ∧ LastAckInv tiny (fullWindow .acked .inflight 5).a) ∧
    (SenderInv oneSent ∧ LastAckInv tiny oneSent.a) ∧
    ∃ t, step { oneSent with inbox := [encode (.aSend [7#8])] } = .next t ∧ t.a.init = true :=
  ⟨rfl, ⟨fullWindow_inv, fun _ => .inl ⟨1, by decide, by decide, by decide⟩⟩,
    ⟨oneSent_inv, fun _ => .inr (by decide)⟩, _, rfl, rfl⟩

/-- A reachable state with a lastACK, an ACKED slot and an INFLIGHT slot. -/
theorem witness_LastAckIsNeverInFlight : tiny.LASTACK_RESET = none ∧
    Reachable tiny (after (.aRx (tinyAck 1)) twoOut) ∧ (after (.aRx (tinyAck 1)) twoOut).a.init = true ∧
    (after (.aRx (tinyAck 1)) twoOut).a.lastack_v = true ∧ 0 < (after (.aRx (tinyAck 1)) twoOut).a.count ∧
    ((after (.aRx (tinyAck 1)) twoOut).a.slotPos tiny 0).tag = .inflight :=
  ⟨rfl, reachable_after twoOut_reachable rfl, rfl, rfl, by decide, rfl⟩

theorem witness_InvariantStatesNeverStop : SenderInv oneSent ∧ ReceiverInv oneSent ∧
    (∀ ev, decode oneSent.cfg (encode .aTimeout) ≠ .error (.operandShape ev)) ∧ oneSent.expiryAllowed :=
  ⟨oneSent_inv, ⟨fun _ => ⟨tiny_valid, by decide, by decide⟩, fun h => (by cases h)⟩, fun ev h => (by cases h), by decide⟩

theorem witness_DetectedChannelNeverFaultsReceiver : ReceiverReady { oneSent with chanAB := [tinyData 2] } ∧
    ChannelInv { oneSent with chanAB := [tinyData 2] } ∧
    chDetected { oneSent with chanAB := [tinyData 2] } (.bRx (tinyData 2)) := by
  refine ⟨⟨by decide, by decide, by decide⟩, ⟨fun p hp => ?_, fun p hp => ?_⟩, .inl (List.mem_singleton.mpr rfl)⟩
  · rw [List.mem_singleton.mp hp]
    exact tinyData_isData
  · cases hp

/-- A step that delivers what A sent. -/
theorem witness_DeliveredPayloadsWereSent :
    NextDetected { oneSent with chanAB := [tinyData 2], inbox := [encode (.bRx (tinyData 2))] } ∧
    DeliveredWasSent { oneSent with chanAB := [tinyData 2], inbox := [encode (.bRx (tinyData 2))] } ∧
    ∃ t, step { oneSent with chanAB := [tinyData 2], inbox := [encode (.bRx (tinyData 2))] } = .next t := by
  refine ⟨fun tr rest i h hd => ?_, fun d hd => ?_, _, rfl⟩
  · injection h with h _
    subst h
    have hb : decode oneSent.cfg (encode (.bRx (tinyData 2))) = .ok (.bRx (tinyData 2)) := rfl
    rw [hb] at hd
    injection hd with hd
    subst hd
    exact .inl (List.mem_singleton.mpr rfl)
  · cases hd

/-- The run in which the channel loses everything: the oldest packet is sent again at every step. -/
def lossyRun (n : Nat) : State :=
  { after .aTimeout oneOut with chanAB := List.replicate (n + 2) (tinyData 0) }

theorem lossyRun_zero : lossyRun 0 = after .aTimeout oneOut := by decide

theorem lossyRun_reachable : Reachable tiny (lossyRun 0) := by
  rw [lossyRun_zero]
  exact reachable_after oneOut_reachable rfl

theorem lossyRun_isRun : IsRun lossyRun fun _ => encode .aTimeout := by
  intro n
  have h : List.replicate (n + 2) (tinyData 0) ++ [tinyData 0] = List.replicate (n + 1 + 2) (tinyData 0) :=
    List.replicate_succ'.symm
  show Host.Outcome.next _ = Host.Outcome.next { after .aTimeout oneOut with chanAB := List.replicate (n + 1 + 2) (tinyData 0) }
  rw [← h]
  rfl

theorem witness_RetransmissionIsUnbounded : Reachable tiny (lossyRun 0) ∧ IsRun lossyRun (fun _ => encode .aTimeout) ∧
    FairExpiry lossyRun (fun _ => encode .aTimeout) ∧ (∀ m, (lossyRun m).fault.reg = 0#8) ∧
    ∀ m ≥ 0, (lossyRun m).a.init = true ∧ 0 < (lossyRun m).a.count :=
  ⟨lossyRun_reachable, lossyRun_isRun, fun n _ => ⟨n, Nat.le_refl n, rfl⟩, fun _ => rfl,
    fun _ _ => ⟨rfl, Nat.one_pos⟩⟩

/-- The run in which the packet arrives and its acknowledgment returns; expiries with an empty window follow. -/
def fairEvent : Nat → Transaction
  | 0 => encode (.bRx (tinyData 0))
  | 1 => encode (.aRx (ackPacket tiny 1 0))
  | _ + 2 => encode .aTimeout

def fairRun : Nat → State
  | 0 => oneOut
  | 1 => after (.bRx (tinyData 0)) oneOut
  | 2 => after (.aRx (ackPacket tiny 1 0)) (after (.bRx (tinyData 0)) oneOut)
  | _ + 3 => after .aTimeout (after (.aRx (ackPacket tiny 1 0)) (after (.bRx (tinyData 0)) oneOut))

theorem fairRun_isRun : IsRun fairRun fairEvent
  | 0 => rfl
  | 1 => rfl
  | 2 => rfl
  | _ + 3 => rfl

theorem fairRun_quiet : ∀ m ≥ 3, ∀ r, (fairRun (m + 1)).resp = some r → r.out = []
  | m + 3, _, r, h => by
    injection (show some (Response.of .toIgnored) = some r from h) with h
    rw [← h]
    rfl

theorem fairRun_fair : FairChannel fairRun fairEvent := by
  have key : ∀ x, ¬ ∀ n, ∃ m ≥ n, ∃ r, (fairRun (m + 1)).resp = some r ∧ x ∈ r.out := by
    intro x h
    obtain ⟨m, hm, r, hr, hx⟩ := h 3
    rw [fairRun_quiet m hm r hr] at hx
    cases hx
  exact fun p => ⟨fun h => absurd h (key _), fun h => absurd h (key _)⟩

theorem fairRun_noFault : ∀ m, (fairRun m).fault.reg = 0#8
  | 0 => rfl
  | 1 => rfl
  | 2 => rfl
  | _ + 3 => rfl

theorem witness_OldestIsEventuallyAcknowledged : tiny.LASTACK_RESET = none ∧ Reachable tiny (fairRun 0) ∧
    IsRun fairRun fairEvent ∧ FairExpiry fairRun fairEvent ∧ FairChannel fairRun fairEvent ∧
    (∀ m, (fairRun m).fault.reg = 0#8) ∧ (fairRun 0).a.init = true ∧ (fairRun 0).b.init = true ∧
    0 < (fairRun 0).a.count :=
  ⟨rfl, oneOut_reachable, fairRun_isRun, fun n _ => ⟨n + 2, Nat.le_add_right n 2, rfl⟩, fairRun_fair, fairRun_noFault,
    rfl, rfl, Nat.one_pos⟩

/-- A drained state that a run reaches. -/
theorem witness_SuccessfulRunIsDrainedIffWindowIsEmpty : Reachable tiny initialised ∧ Successful initialised ∧
    Drained initialised := ⟨initialised_reachable, ⟨rfl, rfl, rfl⟩, ⟨rfl, rfl, rfl⟩, rfl, rfl⟩

theorem witness_PseudoEventsExpandToOneEvent : (IntText.dec (-1)).value = some 0xFFFFFFFF#32 ∧
    (IntText.hex 5#32).value = some 5#32 ∧ (PayloadText.text ['A']).value tiny = some [0x41#8] ∧
    (PayloadText.bytes [0xFF#8]).value tiny = some [0xFF#8] ∧ (PayloadText.msg 'A').value tiny = some [0x41#8] := by decide

end Sys2Proof.Tests
end

section
/-! PROOFS, family 10_state: what an event does to the configuration, the initialisation flags, the diagnostic counters
and lastACK, and the invariants of the first state of a run. -/

namespace Sys2Proof.Machine

/-! ### The registers that the sender's rules keep -/

/-- A slide writes the buffer, `A.first`, `A.count` and `A.trail` only (41_sender.md R115). -/
theorem slide_eq (c : Config) (a : Sender) :
    slide c a = { a with
      buf := (slide c a).buf, first := (slide c a).first, count := (slide c a).count, trail := 0 } := by
  simp only [slide]
  rw [clearOldest_eq, scanTrail_eq]

section slideFrame
variable (c : Config) (a : Sender)

@[simp] theorem slide_init : (slide c a).init = a.init := by rw [slide_eq]
@[simp] theorem slide_lastack_v : (slide c a).lastack_v = a.lastack_v := by rw [slide_eq]
@[simp] theorem slide_lastack : (slide c a).lastack = a.lastack := by rw [slide_eq]
@[simp] theorem slide_cnt_wfull : (slide c a).cnt_wfull = a.cnt_wfull := by rw [slide_eq]
@[simp] theorem slide_cnt_ackcorrupt : (slide c a).cnt_ackcorrupt = a.cnt_ackcorrupt := by rw [slide_eq]
@[simp] theorem slide_cnt_ackdup : (slide c a).cnt_ackdup = a.cnt_ackdup := by rw [slide_eq]

end slideFrame

@[simp] theorem sendRule_init (c : Config) (pay : List Byte) (a : Sender) :
    (sendRule c pay a).1.init = a.init := by
  rcases sendRule_cases c pay a with ⟨-, h⟩ | ⟨-, h⟩ <;> rw [h] <;> rfl

@[simp] theorem ackRule_init (c : Config) (p : Packet) (a : Sender) : (ackRule c p a).1.init = a.init := by
  rcases ackRule_cases c p a with ⟨-, h⟩ | ⟨-, -, h⟩ | ⟨-, -, -, -, h⟩ | ⟨-, -, -, -, -, h⟩ | ⟨-, -, -, -, -, h⟩ <;>
    simp [h]

@[simp] theorem acceptData_init (c : Config) (p : Packet) (b : Receiver) : (acceptData c p b).1.init = b.init := by
  rcases acceptData_cases c p b with ⟨-, h⟩ | ⟨-, h⟩ <;> simp [h]

/-! ### The configuration and the initialisation flags over every event -/

section persistence
variable {i : Instr} {s t : State}

/-- 10_state.md R33: no event writes the configuration. -/
theorem exec_cfg (h : exec i s = .next t) : t.cfg = s.cfg := by
  cases exec_cases h <;> rfl

/-- `A.init` is kept, or it is set by A.INIT (10_state.md R28). -/
theorem exec_a_init (h : exec i s = .next t) : t.a.init = s.a.init ∨ (i = .aInit ∧ t.a.init = true) := by
  cases exec_cases h with
  | aInit _ hi => exact .inr ⟨hi, rfl⟩
  | aSend => exact .inl (sendRule_init ..)
  | aRx => exact .inl (ackRule_init ..)
  | _ => exact .inl rfl

/-- `B.init` is kept, or it is set by B.INIT (10_state.md R28). -/
theorem exec_b_init (h : exec i s = .next t) : t.b.init = s.b.init ∨ (i = .bInit ∧ t.b.init = true) := by
  cases exec_cases h with
  | bInit _ hi => exact .inr ⟨hi, rfl⟩
  | bRx => exact .inl (acceptData_init ..)
  | _ => exact .inl rfl

end persistence

/-! ### The events that write the sender's registers after A.INIT -/

/-- The result codes of the rules of A.SEND and A.RX, which alone write the sender's registers after A.INIT
(30_encoding.md R76). -/
def ResultCode.ofSenderRule : ResultCode → Bool
  | .sendOk | .sendFull | .ackCorrupt | .ackDup | .ackStale | .ackSack | .ackSlide => true
  | .initDone | .toRetx | .toIgnored | .rxCorrupt | .rxNew | .rxDup | .ckDone | .faulted => false

theorem timeoutRule_res (c : Config) (a : Sender) : (timeoutRule c a).res.ofSenderRule = false := by
  rcases timeoutRule_cases c a with ⟨-, h⟩ | ⟨-, -, h⟩ <;> rw [h] <;> rfl

theorem acceptData_res (c : Config) (p : Packet) (b : Receiver) : (acceptData c p b).2.res.ofSenderRule = false := by
  rcases acceptData_cases c p b with ⟨-, h⟩ | ⟨-, h⟩ <;> rw [h] <;> rfl

/-- All that an event other than A.INIT can do to the sender: nothing, with a result code of no sender rule, or the
rule of A.SEND or A.RX, with its response. -/
theorem exec_sender_cases {i : Instr} {s t : State} (h : exec i s = .next t) (hi : i ≠ .aInit) :
    ∃ r, t.resp = some r ∧
      ((t.a = s.a ∧ r.res.ofSenderRule = false) ∨
       (∃ pay, i = .aSend pay ∧ t.a = (sendRule s.cfg pay s.a).1 ∧ r = (sendRule s.cfg pay s.a).2) ∨
       (∃ p, i = .aRx p ∧ t.a = (ackRule s.cfg p s.a).1 ∧ r = (ackRule s.cfg p s.a).2)) := by
  cases exec_cases h with
  | aInit _ hi' => exact absurd hi' hi
  | aSend _ pay hi => exact ⟨_, rfl, .inr (.inl ⟨pay, hi, rfl, rfl⟩)⟩
  | aRx _ p hi => exact ⟨_, rfl, .inr (.inr ⟨p, hi, rfl, rfl⟩)⟩
  | aTimeout => exact ⟨_, rfl, .inl ⟨rfl, timeoutRule_res ..⟩⟩
  | bRx => exact ⟨_, rfl, .inl ⟨rfl, acceptData_res ..⟩⟩
  | _ => exact ⟨_, rfl, .inl ⟨rfl, rfl⟩⟩

/-! ### The diagnostic counters (10_state.md R26) -/

/-- The counters of `b` are those of `a` after an event with result code `res`: the one that 10_state.md R26 names for
`res` is one more, modulo 2^32, and the others are the same. -/
structure CountsResult (res : ResultCode) (a b : Sender) : Prop where
  wfull : b.cnt_wfull = if res = .sendFull then a.cnt_wfull + 1#32 else a.cnt_wfull
  ackcorrupt : b.cnt_ackcorrupt = if res = .ackCorrupt then a.cnt_ackcorrupt + 1#32 else a.cnt_ackcorrupt
  ackdup : b.cnt_ackdup = if res = .ackDup ∨ res = .ackStale then a.cnt_ackdup + 1#32 else a.cnt_ackdup

theorem countsResult_of_not_ofSenderRule {res : ResultCode} (h : res.ofSenderRule = false) (a : Sender) :
    CountsResult res a a := by
  refine ⟨(if_neg ?_).symm, (if_neg ?_).symm, (if_neg ?_).symm⟩
  · rintro rfl; cases h
  · rintro rfl; cases h
  · rintro (rfl | rfl) <;> cases h

theorem sendRule_counts (c : Config) (pay : List Byte) (a : Sender) :
    CountsResult (sendRule c pay a).2.res a (sendRule c pay a).1 := by
  rcases sendRule_cases c pay a with ⟨-, h⟩ | ⟨-, h⟩ <;> rw [h]
  · exact ⟨rfl, rfl, rfl⟩
  · exact ⟨rfl, rfl, rfl⟩

theorem ackRule_counts (c : Config) (p : Packet) (a : Sender) :
    CountsResult (ackRule c p a).2.res a (ackRule c p a).1 := by
  rcases ackRule_cases c p a with ⟨-, h⟩ | ⟨-, -, h⟩ | ⟨-, -, -, -, h⟩ | ⟨-, -, -, -, -, h⟩ | ⟨-, -, -, -, -, h⟩ <;>
    rw [h]
  · exact ⟨rfl, rfl, rfl⟩
  · exact ⟨rfl, rfl, rfl⟩
  · exact ⟨rfl, rfl, rfl⟩
  · exact ⟨rfl, rfl, rfl⟩
  · exact ⟨slide_cnt_wfull .., slide_cnt_ackcorrupt .., slide_cnt_ackdup ..⟩

/-- Every event but A.INIT moves the counters as its result code says. -/
theorem exec_counts {i : Instr} {s t : State} (h : exec i s = .next t) (hi : i ≠ .aInit) :
    ∃ r, t.resp = some r ∧ CountsResult r.res s.a t.a := by
  obtain ⟨r, hr, ⟨ha, hq⟩ | ⟨pay, -, ha, rfl⟩ | ⟨p, -, ha, rfl⟩⟩ := exec_sender_cases h hi
  · exact ⟨r, hr, ha ▸ countsResult_of_not_ofSenderRule hq s.a⟩
  · exact ⟨_, hr, ha ▸ sendRule_counts ..⟩
  · exact ⟨_, hr, ha ▸ ackRule_counts ..⟩

/-- A counter that is one more exactly when `p` holds has changed exactly when `p` holds: adding 1 modulo 2^32 never
gives the same number. -/
theorem counter_spec {p : Prop} [Decidable p] {x y : Bits32} (h : y = if p then x + 1#32 else x) :
    (y = x ∨ y = x + 1#32) ∧ (y ≠ x ↔ p) := by
  subst h
  by_cases hp : p <;> simp [hp]

/-! ### lastACK (10_state.md R21) -/

/-- A number in the window's range is not negative (41_sender.md R113). -/
theorem nonneg_of_inRange {c : Config} {a : Sender} {k : Int} (h : inRange c a k = true) : 0 ≤ k := by
  by_contra hk
  simp [inRange, Int.not_le.mp hk] at h

/-- The event with result code `res` accepted no acknowledgment, and lastACK of `b` is that of `a`. -/
def KeepsLastAck (res : ResultCode) (a b : Sender) : Prop :=
  b.lastack_v = a.lastack_v ∧ b.lastack = a.lastack ∧ res ≠ .ackSack ∧ res ≠ .ackSlide

theorem keepsLastAck_of_not_ofSenderRule {res : ResultCode} (h : res.ofSenderRule = false) (a : Sender) :
    KeepsLastAck res a a := by
  refine ⟨rfl, rfl, ?_, ?_⟩ <;> rintro rfl <;> cases h

theorem sendRule_keepsLastAck (c : Config) (pay : List Byte) (a : Sender) :
    KeepsLastAck (sendRule c pay a).2.res a (sendRule c pay a).1 := by
  rcases sendRule_cases c pay a with ⟨-, h⟩ | ⟨-, h⟩ <;> rw [h]
  · exact ⟨rfl, rfl, by simp [acceptSend], by simp [acceptSend]⟩
  · exact ⟨rfl, rfl, by simp, by simp⟩

/-- A.RX accepts no acknowledgment and keeps lastACK, or it accepts one that did not repeat lastACK, and stores its
number. -/
theorem ackRule_lastAck (c : Config) (p : Packet) (a : Sender) :
    KeepsLastAck (ackRule c p a).2.res a (ackRule c p a).1 ∨
    (((ackRule c p a).2.res = .ackSack ∨ (ackRule c p a).2.res = .ackSlide) ∧
      (ackRule c p a).1.lastack_v = true ∧ ((ackRule c p a).1.lastack : Int) = sint p.acknum ∧
      ¬ a.repeatsLastAck (sint p.acknum)) := by
  rcases ackRule_cases c p a with
    ⟨-, h⟩ | ⟨-, -, h⟩ | ⟨-, -, -, -, h⟩ | ⟨-, -, hrep, hr, -, h⟩ | ⟨-, -, hrep, hr, -, h⟩ <;> rw [h]
  · exact .inl ⟨rfl, rfl, by simp, by simp⟩
  · exact .inl ⟨rfl, rfl, by simp, by simp⟩
  · exact .inl ⟨rfl, rfl, by simp, by simp⟩
  · exact .inr ⟨.inl rfl, rfl, Int.toNat_of_nonneg (nonneg_of_inRange hr), hrep⟩
  · exact .inr ⟨.inr rfl, by simp, by simpa using nonneg_of_inRange hr, hrep⟩

/-! ### The first state of a run (70_reset_and_hazards.md R193) -/

/-- Nothing is initialised, no fault is recorded and nothing is in transit, so every invariant holds. -/
theorem powerOn_inv (c : Config) : Inv (State.powerOn c) where
  sender := by simp [SenderInv]
  timer := by simp [TimerInv]
  receiver := by simp [ReceiverInv]
  fault := .inl ⟨rfl, rfl⟩
  channel := by simp [ChannelInv]

/-! ### The obligations of the family -/

/-- Settles O43: the configuration and each initialisation flag, event by event. -/
theorem configurationAndInitFlagsPersist : Obligations.ConfigurationAndInitFlagsPersist := by
  intro i s t h
  have ha := exec_a_init h
  have hb := exec_b_init h
  refine ⟨exec_cfg h, fun hs => ?_, fun hs => ?_, fun hs ht => ?_, fun hs ht => ?_⟩
  · exact ha.elim (fun e => e.trans hs) And.right
  · exact hb.elim (fun e => e.trans hs) And.right
  · exact ha.elim (fun e => by simp [e, hs] at ht) And.left
  · exact hb.elim (fun e => by simp [e, hs] at ht) And.left

/-- Settles O44: each counter moves as the result code of the event says. -/
theorem countersChangeOnlyByTheirEvents : Obligations.CountersChangeOnlyByTheirEvents := by
  intro i s t h hi
  obtain ⟨r, hr, hc⟩ := exec_counts h hi
  obtain ⟨hfull, hfull'⟩ := counter_spec hc.wfull
  obtain ⟨hcorrupt, hcorrupt'⟩ := counter_spec hc.ackcorrupt
  obtain ⟨hdup, hdup'⟩ := counter_spec hc.ackdup
  exact ⟨hfull, hcorrupt, hdup, by simpa [hr] using hfull', by simpa [hr] using hcorrupt', by simpa [hr] using hdup'⟩

/-- Settles O45: of the events that write the sender only an accepting A.RX writes lastACK. -/
theorem lastAckChangesOnlyWhenAccepted : Obligations.LastAckChangesOnlyWhenAccepted := by
  intro i s t h hi
  obtain ⟨r, hr, hcase⟩ := exec_sender_cases h hi
  have hkeep (hk : KeepsLastAck r.res s.a t.a) : t.a.lastack_v = s.a.lastack_v ∧ t.a.lastack = s.a.lastack ∧
      ∀ r, t.resp = some r → r.res ≠ .ackSack ∧ r.res ≠ .ackSlide := by
    obtain ⟨hv, hl, hne⟩ := hk
    exact ⟨hv, hl, by simpa [hr] using hne⟩
  rcases hcase with ⟨ha, hq⟩ | ⟨pay, -, ha, rfl⟩ | ⟨p, hp, ha, rfl⟩
  · exact .inl (hkeep (ha ▸ keepsLastAck_of_not_ofSenderRule hq s.a))
  · exact .inl (hkeep (ha ▸ sendRule_keepsLastAck ..))
  · rcases ackRule_lastAck s.cfg p s.a with hk | ⟨hres, hv, hl, hrep⟩
    · exact .inl (hkeep (ha ▸ hk))
    · exact .inr ⟨p, _, hp, hr, hres, ha ▸ hv, ha ▸ hl, hrep⟩

/-- Settles O47: the state after reset is the power-on state under the reference configuration. -/
theorem runsStartInvariant : Obligations.RunsStartInvariant := ⟨powerOn_inv _, powerOn_inv⟩

end Sys2Proof.Machine
end

section
/-! PROOFS, family 20_memory: a state with an array of another size stops the step, the delivery record only grows, and
the endpoints share no state. -/

namespace Sys2Proof.Machine

/-! ### Arrays that have not the spec's size (20_memory.md R51, R52; log 13) -/

theorem admitSender_of_not_addressable {o : Op} {s : State} (hf : s.fault.reg = 0#8) (hi : s.a.init = true)
    (ha : ¬ s.a.windowAddressable s.cfg) (rule : Answer) : admitSender o s rule = .fault .windowIndex := by
  rw [admitSender, unlessFaulted_of_noFault hf, if_neg (by simp [hi]), if_neg ha]

theorem admitReceiver_of_not_addressable {o : Op} {s : State} (hf : s.fault.reg = 0#8) (hi : s.b.init = true)
    (hb : ¬ s.b.recordAddressable s.cfg) (rule : Answer) : admitReceiver o s rule = .fault .recordIndex := by
  rw [admitReceiver, unlessFaulted_of_noFault hf, if_neg (by simp [hi]), if_neg hb]

/-! ### The outputs of one endpoint

What the host does with a list of outputs that all name one endpoint (30_encoding.md R78): it touches nothing of the
other endpoint's. -/

/-- Every output of the list names the endpoint `e`. -/
def OutputsOf (e : Endpoint) (out : List Action) : Prop := ∀ x ∈ out, x.endpoint = e

@[simp] theorem outputsOf_nil (e : Endpoint) : OutputsOf e [] := by simp [OutputsOf]

@[simp] theorem outputsOf_cons (e : Endpoint) (x : Action) (xs : List Action) :
    OutputsOf e (x :: xs) ↔ x.endpoint = e ∧ OutputsOf e xs := by simp [OutputsOf]

section outputs
variable {out : List Action}

theorem sentBy_of_outputsOf {e f : Endpoint} (hne : e ≠ f) (h : OutputsOf e out) : sentBy f out = [] := by
  induction out with
  | nil => rfl
  | cons x xs ih =>
    obtain ⟨rfl, hxs⟩ := (outputsOf_cons ..).mp h
    cases x with
    | tx g p => exact (if_neg hne).trans (ih hxs)
    | _ => exact ih hxs

theorem deliveredBy_of_outputsOf_a (h : OutputsOf .a out) : deliveredBy out = [] := by
  induction out with
  | nil => rfl
  | cons x xs ih =>
    obtain ⟨hx, hxs⟩ := (outputsOf_cons ..).mp h
    cases x with
    | deliver g d => cases hx; exact ih hxs
    | _ => simpa using ih hxs

/-- Endpoint B has no timer (60_exceptions.md R171). -/
theorem applyTimers_of_outputsOf_b (t : Timer) (h : OutputsOf .b out) : applyTimers t out = t := by
  induction out with
  | nil => rfl
  | cons x xs ih =>
    obtain ⟨hx, hxs⟩ := (outputsOf_cons ..).mp h
    cases x <;> cases hx <;> exact ih hxs

end outputs

section rules
variable {c : Config} {pay : List Byte} {p : Packet} {a : Sender} {b : Receiver}

theorem sendRule_outputsOf : OutputsOf .a (sendRule c pay a).2.out := by
  rcases sendRule_cases c pay a with ⟨-, h⟩ | ⟨-, h⟩ <;> rw [h]
  · simp only [acceptSend]
    split <;> simp [Action.endpoint]
  · simp

theorem ackRule_outputsOf : OutputsOf .a (ackRule c p a).2.out := by
  rcases ackRule_cases c p a with ⟨-, h⟩ | ⟨-, -, h⟩ | ⟨-, -, -, -, h⟩ | ⟨-, -, -, -, -, h⟩ | ⟨-, -, -, -, -, h⟩ <;>
    rw [h]
  case inr.inr.inr.inr =>
    simp only [ofOut_out, slideTimers]
    split <;> simp [Action.endpoint]
  all_goals simp

theorem timeoutRule_outputsOf : OutputsOf .a (timeoutRule c a).out := by
  rcases timeoutRule_cases c a with ⟨-, h⟩ | ⟨-, -, h⟩ <;> simp [h, Action.endpoint]

theorem acceptData_outputsOf : OutputsOf .b (acceptData c p b).2.out := by
  rcases acceptData_cases c p b with ⟨-, h⟩ | ⟨-, h⟩ <;> simp [h, Action.endpoint]

end rules

/-! ### The delivery record over every event (20_memory.md R52, 42_receiver.md R147) -/

/-- The record and the deliveries of `s` and `t` are the same, or one payload `d` is delivered and the bit `q` of the
record, which was 0, is set. -/
def RecordStep (s t : State) : Prop :=
  (t.delivered = s.delivered ∧ t.b.dlv = s.b.dlv) ∨
  ∃ (q : Nat) (d : List Byte), q < s.b.dlv.length ∧ s.b.hasDelivered q = false ∧
    t.delivered = s.delivered ++ [d] ∧ t.b.dlv = s.b.dlv.set q true

section record
variable {i : Instr} {s t : State}

/-- B.RX for an accepted packet: the bit it sets is one of the record's, since the packet's number is in `[0, S)`. -/
theorem acceptData_recordStep {c : Config} {p : Packet} (hb : s.b.recordAddressable c)
    (hq : inSeqSpace c (sint p.seqnum)) :
    RecordStep s (State.publish { s with b := (acceptData c p s.b).1 } (acceptData c p s.b).2) := by
  rcases acceptData_cases c p s.b with ⟨hd, h⟩ | ⟨-, h⟩ <;> rw [h]
  · have hlt : (sint p.seqnum).toNat < s.b.dlv.length := by omega
    exact .inr ⟨_, p.payload, hlt, hd, by simp, by simp⟩
  · exact .inl (by simp)

/-- After B.INIT every event leaves the record and the deliveries, or delivers one payload and sets one bit. -/
theorem exec_recordStep (hi : s.b.init = true) (h : exec i s = .next t) : RecordStep s t := by
  cases exec_cases h with
  | bInit _ _ hn => simp [hi] at hn
  | bRx _ _ _ _ hb _ hr => exact acceptData_recordStep hb hr
  | aSend => exact .inl (by simp [deliveredBy_of_outputsOf_a sendRule_outputsOf])
  | aRx => exact .inl (by simp [deliveredBy_of_outputsOf_a ackRule_outputsOf])
  | aTimeout => exact .inl (by simp [deliveredBy_of_outputsOf_a timeoutRule_outputsOf])
  | _ => exact .inl (by simp)

theorem execIllegal_recordStep {ev : EventWord} (h : execIllegal ev s = .next t) : RecordStep s t := by
  rcases execIllegal_cases h with ⟨-, rfl⟩ | ⟨-, rfl⟩ <;> exact .inl (by simp)

theorem step_recordStep (hi : s.b.init = true) (h : step s = .next t) : RecordStep s t := by
  rcases step_cases h with ⟨-, rfl⟩ | ⟨tr, rest, i, -, -, h⟩ | ⟨tr, rest, ev, -, -, h⟩
  · exact .inl ⟨rfl, rfl⟩
  · exact (exec_recordStep hi h : RecordStep { s with inbox := rest } t)
  · exact (execIllegal_recordStep h : RecordStep { s with inbox := rest } t)

end record

/-! ### Events and changes of the state they run in

An event that neither reads nor writes what `f` changes commutes with `f`. -/

/-- The answer with its next state, if it has one, changed by `f`. -/
def mapNext (f : State → State) : Answer → Answer
  | .next s => .next (f s)
  | .fault r => .fault r
  | .refused r => .refused r

theorem mapNext_of_next {f : State → State} {x y : Answer} {t : State} (h : x = mapNext f y) (hy : y = .next t) :
    x = .next (f t) := by
  rw [h, hy, mapNext]

/-- Check 1 commutes with a change that keeps the fault record and passes a FAULTED response, if the rule does. -/
theorem unlessFaulted_mapNext {f : State → State} {s : State} {rule rule' : Answer} (hfault : (f s).fault = s.fault)
    (hfin : finish (f s) (Response.of .faulted) = mapNext f (finish s (Response.of .faulted)))
    (hrule : rule' = mapNext f rule) : unlessFaulted (f s) rule' = mapNext f (unlessFaulted s rule) := by
  rw [unlessFaulted, unlessFaulted, apply_ite (mapNext f), hfault, hfin, hrule]

/-! ### The sender's events and the receiver (20_memory.md R57, 60_exceptions.md R170) -/

/-- `s` with the receiver `b` in place of its own. -/
def State.withReceiver (b : Receiver) (s : State) : State := { s with b := b }

/-- The events of the sender unit. -/
def OfSender (i : Instr) : Prop := i = .aInit ∨ (∃ pay, i = .aSend pay) ∨ (∃ p, i = .aRx p) ∨ i = .aTimeout

section withReceiver
variable {i : Instr} {s t : State} (o : Op) (b : Receiver) (rule : Answer)

theorem admitSender_withReceiver : admitSender o (s.withReceiver b) (mapNext (State.withReceiver b) rule) =
    mapNext (State.withReceiver b) (admitSender o s rule) := by
  refine unlessFaulted_mapNext rfl rfl ?_
  simp only [apply_ite (mapNext _)]
  rfl

/-- A sender's event does not read the receiver. -/
theorem exec_withReceiver (hi : OfSender i) :
    exec i (s.withReceiver b) = mapNext (State.withReceiver b) (exec i s) := by
  rcases hi with rfl | ⟨pay, rfl⟩ | ⟨p, rfl⟩ | rfl <;> simp only [exec]
  · refine unlessFaulted_mapNext rfl rfl ?_
    simp only [apply_ite (mapNext _)]
    rfl
  · exact admitSender_withReceiver .aSend b (finishSender s (sendRule s.cfg pay s.a))
  · exact admitSender_withReceiver .aRx b (finishSender s (ackRule s.cfg p s.a))
  · simp only [execATimeout, presentExpiry, apply_ite (mapNext _), ← admitSender_withReceiver]
    rfl

/-- A sender's event does not write the receiver, its collection or the deliveries. -/
theorem exec_keeps_receiver (hi : OfSender i) (h : exec i s = .next t) :
    t.b = s.b ∧ t.chanBA = s.chanBA ∧ t.delivered = s.delivered := by
  have hout {r : Response} (hr : OutputsOf .a r.out) : sentBy .b r.out = [] ∧ deliveredBy r.out = [] :=
    ⟨sentBy_of_outputsOf (by decide) hr, deliveredBy_of_outputsOf_a hr⟩
  cases exec_cases h with
  | bInit _ hi' | bRx _ _ hi' => simp [OfSender, hi'] at hi
  | aSend => simp [hout sendRule_outputsOf]
  | aRx => simp [hout ackRule_outputsOf]
  | aTimeout => simp [hout timeoutRule_outputsOf]
  | _ => simp

end withReceiver

/-! ### The receiver's events and the sender -/

/-- `s` with the sender `a` and the timer `tm` in place of its own. -/
def State.withSender (a : Sender) (tm : Timer) (s : State) : State := { s with a := a, timer := tm }

/-- The events of the receiver unit. -/
def OfReceiver (i : Instr) : Prop := i = .bInit ∨ ∃ p, i = .bRx p

section withSender
variable {i : Instr} {s t : State} (o : Op) (a : Sender) (tm : Timer) (rule : Answer)

theorem admitReceiver_withSender : admitReceiver o (s.withSender a tm) (mapNext (State.withSender a tm) rule) =
    mapNext (State.withSender a tm) (admitReceiver o s rule) := by
  refine unlessFaulted_mapNext rfl rfl ?_
  simp only [apply_ite (mapNext _)]
  rfl

/-- The receiver's outputs start and stop no timer, so the host leaves the one in place. -/
theorem finishReceiver_withSender {x : Receiver × Response} (hx : OutputsOf .b x.2.out) :
    finishReceiver (s.withSender a tm) x = mapNext (State.withSender a tm) (finishReceiver s x) := by
  simp [finishReceiver, finish, mapNext, State.withSender, State.publish, applyTimers_of_outputsOf_b _ hx]

/-- A receiver's event reads neither the sender nor the timer. -/
theorem exec_withSender (hi : OfReceiver i) :
    exec i (s.withSender a tm) = mapNext (State.withSender a tm) (exec i s) := by
  rcases hi with rfl | ⟨p, rfl⟩ <;> simp only [exec]
  · refine unlessFaulted_mapNext rfl rfl ?_
    simp only [apply_ite (mapNext _)]
    rfl
  · simp only [execBRx, ← admitReceiver_withSender, apply_ite (mapNext _),
      ← finishReceiver_withSender _ _ acceptData_outputsOf]
    rfl

/-- A receiver's event writes neither the sender, nor the timer, nor the sender's collection. -/
theorem exec_keeps_sender (hi : OfReceiver i) (h : exec i s = .next t) :
    t.a = s.a ∧ t.timer = s.timer ∧ t.chanAB = s.chanAB := by
  have hout {r : Response} (hr : OutputsOf .b r.out) : applyTimers s.timer r.out = s.timer ∧ sentBy .a r.out = [] :=
    ⟨applyTimers_of_outputsOf_b _ hr, sentBy_of_outputsOf (by decide) hr⟩
  cases exec_cases h with
  | bRx => simp [hout acceptData_outputsOf]
  | quietExpiry _ hi' | raisedExpiry _ hi' | aInit _ hi' | aSend _ _ hi' | aRx _ _ hi' | aTimeout _ hi' =>
    simp [OfReceiver, hi'] at hi
  | _ => simp

end withSender

/-! ### The integrity events -/

/-- An event that puts out nothing ends with a new response only. -/
theorem publish_of_out_nil {s : State} {r : Response} (h : r.out = []) : s.publish r = { s with resp := some r } := by
  simp [State.publish, h]

/-! ### The obligations of the family -/

/-- Settles O35: a bit that is set stays set, and the one bit that B.RX sets was 0. -/
theorem deliveryRecordOnlyGrows : Obligations.DeliveryRecordOnlyGrows := by
  intro s t hi h
  rcases step_recordStep hi h with ⟨hd, hb⟩ | ⟨q, d, hlt, hold, hd, hb⟩
  · exact ⟨fun q hq => by simpa [Receiver.hasDelivered, hb] using hq, .inl ⟨hd, hb⟩⟩
  · have hbit (r : Nat) : t.b.hasDelivered r = (s.b.record q).hasDelivered r := by
      simp [Receiver.hasDelivered, hb]
    have hset : t.b.hasDelivered q = true := (hbit q).trans (hasDelivered_record_self _ _ hlt)
    have hkeep (r : Nat) (hr : r ≠ q) : t.b.hasDelivered r = s.b.hasDelivered r :=
      (hbit r).trans (hasDelivered_record_ne _ _ _ hr.symm)
    refine ⟨fun r hr => ?_, .inr ⟨q, d, hd, hold, hset, hkeep⟩⟩
    exact (hkeep r fun e => by simp [e, hold] at hr).trans hr

/-- Settles O42: each endpoint's events commute with a change of the other endpoint, and every output they put out names
their own. -/
theorem endpointsShareNoState : Obligations.EndpointsShareNoState := by
  refine ⟨fun i s t hi h => ?_, fun i s t hi h => ?_, fun i s t hi h => ?_⟩
  · obtain ⟨hb, hch, hd⟩ := exec_keeps_receiver hi h
    exact ⟨hb, hch, hd, fun b => mapNext_of_next (exec_withReceiver b hi) h⟩
  · obtain ⟨ha, htm, hch⟩ := exec_keeps_sender hi h
    exact ⟨ha, htm, hch, fun a tm => mapNext_of_next (exec_withSender a tm hi) h⟩
  · rcases hi with ⟨p, rfl⟩ | ⟨p, rfl⟩
    · rcases execCkCompute_cases h with ⟨-, rfl⟩ | ⟨-, rfl⟩ <;> exact ⟨_, publish_of_out_nil rfl⟩
    · rcases execCkVerify_cases h with ⟨-, rfl⟩ | ⟨-, rfl⟩ <;> exact ⟨_, publish_of_out_nil rfl⟩

/-- Settles O25: admission checks the arrays after the fault record and the initialisation flag. -/
theorem unaddressableArraysFault : Obligations.UnaddressableArraysFault := by
  refine ⟨fun s hf hi ha => ⟨fun _ => ?_, fun _ => ?_, fun he => ?_⟩, fun s hf hi hb _ => ?_⟩
  · exact admitSender_of_not_addressable hf hi ha _
  · exact admitSender_of_not_addressable hf hi ha _
  · rw [exec, execATimeout, presentExpiry_of_allowed he]
    exact admitSender_of_not_addressable (s := s.disarm) hf hi ha _
  · exact admitReceiver_of_not_addressable hf hi hb _

end Sys2Proof.Machine
end

section
/-! PROOFS, family 30_encoding: decoding and encoding are inverse, the words outside the opcode map fault, each field of
a response and each result code belongs to its events, the packets in transit are well built, and each line of the event
text stands for one event. -/

namespace Sys2Proof

/-! ### Packets on the operand bus (30_encoding.md R72, R73) -/

theorem packet_wellFormed_iff {c : Config} {p : Packet} : p.wellFormed c = true ↔ p.payload.length = c.L := by
  simp [Packet.wellFormed]

/-- The four fields of a packet are read from the bus where their bytes stand. -/
theorem packetOfBytes_append {L : Nat} {seq ack pl sum : List Byte} (hseq : seq.length = 4) (hack : ack.length = 4)
    (hpl : pl.length = L) (hsum : sum.length = 4) :
    packetOfBytes L (seq ++ ack ++ pl ++ sum) = ⟨fieldOfBytes seq, fieldOfBytes ack, pl, fieldOfBytes sum⟩ := by
  have hpre : (seq ++ ack).length = 8 := by simp [hseq, hack]
  have hdata : (seq ++ ack ++ pl).length = 8 + L := by rw [List.length_append, hpre, hpl]
  have h0 : (seq ++ ack ++ pl ++ sum).take 4 = seq := by simp [List.take_left' hseq]
  have h4 : ((seq ++ ack ++ pl ++ sum).drop 4).take 4 = ack := by simp [List.drop_left' hseq, List.take_left' hack]
  have h8 : ((seq ++ ack ++ pl ++ sum).drop 8).take L = pl := by
    rw [List.append_assoc _ pl, List.drop_left' hpre, List.take_left' hpl]
  have hlast : ((seq ++ ack ++ pl ++ sum).drop (8 + L)).take 4 = sum := by
    rw [List.drop_left' hdata, List.take_of_length_le hsum.le]
  rw [packetOfBytes, h0, h4, h8, hlast]

/-- The operand bytes of a packet are its four fields, one after the other. -/
theorem exists_fields_of_length {L : Nat} {bs : List Byte} (h : bs.length = 12 + L) :
    ∃ seq ack pl sum : List Byte, seq.length = 4 ∧ ack.length = 4 ∧ pl.length = L ∧ sum.length = 4 ∧
      bs = seq ++ ack ++ pl ++ sum := by
  refine ⟨bs.take 4, (bs.drop 4).take 4, (bs.drop (4 + 4)).take L, bs.drop (4 + 4 + L), ?_, ?_, ?_, ?_,
    by rw [← List.take_add, ← List.take_add, List.take_append_drop]⟩ <;>
    simp only [List.length_take, List.length_drop] <;> omega

theorem packetOfBytes_bytesOfPacket {c : Config} {p : Packet} (h : p.wellFormed c = true) :
    packetOfBytes c.L (bytesOfPacket p) = p := by
  rw [bytesOfPacket, packetOfBytes_append (bytesOfField_length _) (bytesOfField_length _) (packet_wellFormed_iff.mp h)
    (bytesOfField_length _)]
  simp only [fieldOfBytes_bytesOfField]

theorem bytesOfPacket_packetOfBytes {L : Nat} {bs : List Byte} (h : bs.length = 12 + L) :
    bytesOfPacket (packetOfBytes L bs) = bs := by
  obtain ⟨seq, ack, pl, sum, hseq, hack, hpl, hsum, rfl⟩ := exists_fields_of_length h
  rw [packetOfBytes_append hseq hack hpl hsum, bytesOfPacket, bytesOfField_fieldOfBytes hseq,
    bytesOfField_fieldOfBytes hack, bytesOfField_fieldOfBytes hsum]

theorem packetOfBytes_wellFormed {c : Config} {bs : List Byte} (h : bs.length = 12 + c.L) :
    (packetOfBytes c.L bs).wellFormed c = true := by
  rw [packet_wellFormed_iff, packetOfBytes, List.length_take, List.length_drop]
  omega

/-! ### The opcode map (30_encoding.md R77, R79) -/

/-- The eight event words outside the opcode map (30_encoding.md R79). -/
def illegalWords : List EventWord := [0x9#4, 0xB#4, 0x6#4, 0x7#4, 0xC#4, 0xD#4, 0xE#4, 0xF#4]

theorem opOfWord_of_mem_illegalWords : ∀ ev ∈ illegalWords, opOfWord ev = none := by decide

theorem word_of_opOfWord {ev : EventWord} {o : Op} (h : opOfWord ev = some o) : o.word = ev := by
  have hall : ∀ ev : EventWord, ∀ o ∈ opOfWord ev, o.word = ev := by decide
  exact hall ev o h

theorem exists_op_of_not_mem_illegalWords {ev : EventWord} (h : ev ∉ illegalWords) : ∃ o, opOfWord ev = some o := by
  have hall : ∀ ev : EventWord, ev ∉ illegalWords → (opOfWord ev).isSome := by decide
  exact Option.isSome_iff_exists.mp (hall ev h)

/-! ### Instructions and their operands (30_encoding.md R70, R71) -/

theorem operandOf_length {c : Config} {i : Instr} (h : i.wellFormed c = true) :
    (operandOf i).length = i.op.format.operandBytes c := by
  cases i with
  | aInit | aTimeout | bInit => rfl
  | aSend pay => exact (Laws.BusShape.aSend pay).2 c h
  | aRx | ckCompute | ckVerify | bRx => exact Laws.BusShape.packetOperand h

theorem instrOfOp_operandOf {c : Config} {i : Instr} (h : i.wellFormed c = true) :
    instrOfOp c i.op (operandOf i) = i := by
  cases i with
  | aInit | aTimeout | bInit | aSend => rfl
  | aRx => exact congrArg Instr.aRx (packetOfBytes_bytesOfPacket h)
  | ckCompute => exact congrArg Instr.ckCompute (packetOfBytes_bytesOfPacket h)
  | ckVerify => exact congrArg Instr.ckVerify (packetOfBytes_bytesOfPacket h)
  | bRx => exact congrArg Instr.bRx (packetOfBytes_bytesOfPacket h)

section operand
variable {c : Config} {o : Op} {bs : List Byte}

@[simp] theorem op_instrOfOp : (instrOfOp c o bs).op = o := by cases o <;> rfl

theorem operandOf_instrOfOp (h : bs.length = o.format.operandBytes c) : operandOf (instrOfOp c o bs) = bs := by
  cases o with
  | aInit | aTimeout | bInit => exact (List.length_eq_zero_iff.mp h).symm
  | aSend => rfl
  | aRx | ckCompute | ckVerify | bRx => exact bytesOfPacket_packetOfBytes h

theorem instrOfOp_wellFormed (h : bs.length = o.format.operandBytes c) : (instrOfOp c o bs).wellFormed c = true := by
  cases o with
  | aInit | aTimeout | bInit => rfl
  | aSend => exact beq_iff_eq.mpr h
  | aRx | ckCompute | ckVerify | bRx => exact packetOfBytes_wellFormed h

end operand

/-! ### Decoding (30_encoding.md R71, R79, R80) -/

section decode
variable {c : Config} {t : Transaction} {i : Instr}

/-- A transaction decodes exactly when its word is in the opcode map and its operand has its format's bytes. -/
theorem decode_eq_ok_iff : decode c t = .ok i ↔
    ∃ o, opOfWord t.ev = some o ∧ t.operand.length = o.format.operandBytes c ∧ instrOfOp c o t.operand = i := by
  unfold decode
  rcases opOfWord t.ev with _ | o
  · simp
  · by_cases h : t.operand.length = o.format.operandBytes c <;> simp [h]

theorem decode_of_mem_illegalWords (h : t.ev ∈ illegalWords) : decode c t = .error (.illegalEvent t.ev) := by
  rw [decode, opOfWord_of_mem_illegalWords _ h]

theorem decode_encode (h : i.wellFormed c = true) : decode c (encode i) = .ok i :=
  decode_eq_ok_iff.mpr ⟨i.op, opOfWord_word _, operandOf_length h, instrOfOp_operandOf h⟩

theorem decode_of_encode_eq (ht : encode i = t) (h : i.wellFormed c = true) : decode c t = .ok i :=
  ht ▸ decode_encode h

theorem encode_of_decode (h : decode c t = .ok i) : encode i = t := by
  obtain ⟨o, hword, hlen, rfl⟩ := decode_eq_ok_iff.mp h
  rw [encode, op_instrOfOp, word_of_opOfWord hword, operandOf_instrOfOp hlen]

theorem wellFormed_of_decode (h : decode c t = .ok i) : i.wellFormed c = true := by
  obtain ⟨o, -, hlen, rfl⟩ := decode_eq_ok_iff.mp h
  exact instrOfOp_wellFormed hlen

end decode

/-! ### The obligations on the encoding -/

/-- Settles O1: the event word selects the operation, and the operand's bytes give back its fields. -/
theorem decodeEncodeIsIdentity : Obligations.DecodeEncodeIsIdentity := fun _ _ => decode_encode

/-- Settles O2: the operation's word and the bytes that were read are the transaction's own. -/
theorem encodeDecodeIsIdentity : Obligations.EncodeDecodeIsIdentity :=
  fun _ _ _ h => ⟨encode_of_decode h, wellFormed_of_decode h⟩

/-- Settles O3: each word is the encoding of the event it stands for. -/
theorem writtenWordsDecode : Obligations.WrittenWordsDecode :=
  ⟨decode_of_encode_eq rfl rfl, decode_of_encode_eq rfl rfl, decode_of_encode_eq rfl rfl, decode_of_encode_eq rfl rfl,
    decode_of_encode_eq rfl rfl, decode_of_encode_eq rfl rfl⟩

end Sys2Proof

namespace Sys2Proof.Machine

/-! ### Event words outside the opcode map (30_encoding.md R79) -/

theorem step_of_illegal {s : State} {tr : Transaction} {rest : List Transaction} {ev : EventWord}
    (h : s.inbox = tr :: rest) (hd : decode s.cfg tr = .error (.illegalEvent ev)) :
    step s = execIllegal ev { s with inbox := rest } := by
  simp [step, fetch, h, hd]

theorem execIllegal_of_noFault {s : State} (h : s.fault.reg = 0#8) (ev : EventWord) : execIllegal ev s =
    .next (State.publish { s with fault := ⟨FaultCause.illegalEvent.mask, some ⟨ev, 0#32⟩⟩ } (Response.of .faulted)) := by
  rw [execIllegal, unlessFaulted_of_noFault h, raiseFault_eq_next, record_of_none h]

/-- Settles O4: an illegal word decodes to none of the events, and the step raises the fault with it. -/
theorem illegalWordsRaiseFault : Obligations.IllegalWordsRaiseFault := by
  refine ⟨fun s tr rest hin hf hev => ?_, fun ev hev => ?_⟩
  · rw [step_of_illegal hin (decode_of_mem_illegalWords hev),
      execIllegal_of_noFault (s := { s with inbox := rest }) hf, publish_of_out_nil rfl]
    rfl
  · obtain ⟨o, ho⟩ := exists_op_of_not_mem_illegalWords hev
    exact ⟨o, ho, word_of_opOfWord ho⟩

/-! ### Responses (30_encoding.md R75, R76) -/

/-- The event produces the result code, by the table of 30_encoding.md R76. Any event produces FAULTED. -/
def ResultCode.ProducedBy (i : Instr) : ResultCode → Prop
  | .initDone => i = .aInit ∨ i = .bInit
  | .sendOk | .sendFull => ∃ pay, i = .aSend pay
  | .ackCorrupt | .ackDup | .ackStale | .ackSack | .ackSlide => ∃ p, i = .aRx p
  | .toRetx | .toIgnored => i = .aTimeout
  | .rxCorrupt | .rxNew | .rxDup => ∃ p, i = .bRx p
  | .ckDone => (∃ p, i = .ckCompute p) ∨ (∃ p, i = .ckVerify p)
  | .faulted => True

/-- The response is one that 30_encoding.md R75 and R76 allow the event under the configuration. -/
structure Response.Fits (c : Config) (i : Instr) (r : Response) : Prop where
  res : r.res.ProducedBy i
  acc : r.acc = true ↔ r.res = .sendOk
  ckv : r.ckv ≠ 0#32 → ∃ p, i = .ckCompute p
  cor : r.cor = true → ∃ p, i = .ckVerify p
  ckv_eq : ∀ p, i = .ckCompute p → r.res ≠ .faulted → r.ckv = computeChecksum c p
  cor_eq : ∀ p, i = .ckVerify p → r.res ≠ .faulted → r.cor = isCorrupted c p

section fits
variable {c : Config} {i : Instr} {res : ResultCode} {pay : List Byte} {p : Packet}

/-- An event of the integrity unit completes with CK_DONE or is FAULTED. -/
theorem producedBy_integrity (h : res.ProducedBy i) (hi : (∃ p, i = .ckCompute p) ∨ ∃ p, i = .ckVerify p) :
    res = .ckDone ∨ res = .faulted := by
  rcases hi with ⟨p, rfl⟩ | ⟨p, rfl⟩ <;> cases res <;> simp [ResultCode.ProducedBy] at h ⊢

/-- A response whose ACC, CKV and COR are 0 fits every event that produces its result code, but for the result codes
SEND_OK and CK_DONE. -/
theorem ofOut_fits {out : List Action} (h : res.ProducedBy i) (hsend : res ≠ .sendOk) (hck : res ≠ .ckDone) :
    (Response.ofOut res out).Fits c i where
  res := h
  acc := by simp [hsend]
  ckv := by simp
  cor := by simp
  ckv_eq p hi hf := ((producedBy_integrity h (.inl ⟨p, hi⟩)).elim hck hf).elim
  cor_eq p hi hf := ((producedBy_integrity h (.inr ⟨p, hi⟩)).elim hck hf).elim

theorem faulted_fits : (Response.of .faulted).Fits c i := ofOut_fits trivial (by decide) (by decide)

theorem sendRule_fits (a : Sender) : (sendRule c pay a).2.Fits c (.aSend pay) := by
  rcases sendRule_cases c pay a with ⟨-, h⟩ | ⟨-, h⟩ <;> rw [h]
  · constructor <;> simp [acceptSend, ResultCode.ProducedBy]
  · exact ofOut_fits ⟨pay, rfl⟩ (by decide) (by decide)

theorem ackRule_fits (a : Sender) : (ackRule c p a).2.Fits c (.aRx p) := by
  rcases ackRule_cases c p a with ⟨-, h⟩ | ⟨-, -, h⟩ | ⟨-, -, -, -, h⟩ | ⟨-, -, -, -, -, h⟩ | ⟨-, -, -, -, -, h⟩ <;>
    rw [h] <;> exact ofOut_fits ⟨p, rfl⟩ (by decide) (by decide)

theorem timeoutRule_fits (a : Sender) : (timeoutRule c a).Fits c .aTimeout := by
  rcases timeoutRule_cases c a with ⟨-, h⟩ | ⟨-, -, h⟩ <;> rw [h] <;> exact ofOut_fits rfl (by decide) (by decide)

theorem acceptData_fits (b : Receiver) : (acceptData c p b).2.Fits c (.bRx p) := by
  rcases acceptData_cases c p b with ⟨-, h⟩ | ⟨-, h⟩ <;> rw [h] <;>
    exact ofOut_fits ⟨p, rfl⟩ (by decide) (by decide)

theorem computeDone_fits : Response.Fits c (.ckCompute p) { Response.of .ckDone with ckv := computeChecksum c p } := by
  constructor <;> simp [ResultCode.ProducedBy]

theorem verifyDone_fits : Response.Fits c (.ckVerify p) { Response.of .ckDone with cor := isCorrupted c p } := by
  constructor <;> simp [ResultCode.ProducedBy]

/-- Every event leaves a response that fits it. -/
theorem exec_fits {s t : State} (h : exec i s = .next t) : ∃ r, t.resp = some r ∧ r.Fits s.cfg i := by
  cases exec_cases h with
  | quiet | quietExpiry | raised | raisedExpiry => exact ⟨_, rfl, faulted_fits⟩
  | aInit _ hi => exact ⟨_, rfl, ofOut_fits (.inl hi) (by decide) (by decide)⟩
  | bInit _ hi => exact ⟨_, rfl, ofOut_fits (.inr hi) (by decide) (by decide)⟩
  | aSend _ pay hi => exact ⟨_, rfl, hi ▸ sendRule_fits s.a⟩
  | aRx _ p hi => exact ⟨_, rfl, hi ▸ ackRule_fits s.a⟩
  | aTimeout _ hi => exact ⟨_, rfl, hi ▸ timeoutRule_fits s.a⟩
  | ckCompute _ p hi => exact ⟨_, rfl, hi ▸ computeDone_fits⟩
  | ckVerify _ p hi => exact ⟨_, rfl, hi ▸ verifyDone_fits⟩
  | bRxCorrupt _ p hi => exact ⟨_, rfl, ofOut_fits ⟨p, hi⟩ (by decide) (by decide)⟩
  | bRx _ p hi => exact ⟨_, rfl, hi ▸ acceptData_fits s.b⟩

end fits

/-- Settles O39: the response of an event fits it, and SEND_OK is produced by A.SEND only. -/
theorem responseFieldsBelongToTheirEvents : Obligations.ResponseFieldsBelongToTheirEvents := by
  intro i s t h
  obtain ⟨r, hr, hres, hacc, hckv, hcor, hckv', hcor'⟩ := exec_fits h
  have hsend (ha : r.acc = true) : ResultCode.ProducedBy i .sendOk := hacc.mp ha ▸ hres
  exact ⟨r, hr, hacc, hsend, hckv, hcor, hckv', hcor'⟩

/-- Settles O40: each clause is a row of the table of R76. -/
theorem resultCodesBelongToTheirEvents : Obligations.ResultCodesBelongToTheirEvents := by
  intro i s t r h hr _
  obtain ⟨r', hr', hfit⟩ := exec_fits h
  obtain rfl : r = r' := Option.some.inj (hr.symm.trans hr')
  have hres := hfit.res
  refine ⟨fun e => ?_, fun e => ?_, fun e => ?_, fun e => ?_, fun e => ?_, fun e => ?_⟩
  · rwa [e] at hres
  · rcases e with e | e <;> rwa [e] at hres
  · rcases e with e | e | e | e | e <;> rwa [e] at hres
  · rcases e with e | e <;> rwa [e] at hres
  · rcases e with e | e | e <;> rwa [e] at hres
  · rwa [e] at hres

/-! ### The packets that the block builds (30_encoding.md R72) -/

section built
variable {c : Config} {a : Sender} {s t : State} {i : Instr}

/-- The packet that A.SEND builds (41_sender.md R111). -/
theorem isDataPacket_new (hv : ValidConfig c) (hq : SeqInv c a) {pay : List Byte} (hpay : pay.length = c.L) :
    IsDataPacket c (mkpkt c (word a.nextseq) c.NOTINUSE pay) where
  seqnum := by
    have hlt := hq.next_lt
    have hS := hv.seq_le
    rw [mkpkt_seqnum, sint_word_of_lt (by omega)]
    omega
  acknum := rfl
  payload := hpay
  valid := isCorrupted_mkpkt ..

/-- The packet that A.TIMEOUT sends again (41_sender.md R117). -/
theorem isDataPacket_oldest (hv : ValidConfig c) (hw : WindowInv c a) (hq : SeqInv c a) (hpos : 0 < a.count) :
    IsDataPacket c (a.slotAt a.first).pkt := by
  have hW := hv.window_pos
  have hS := hv.seq_ratio
  rw [← slotPos_zero hw.addressable.2.2.1]
  refine ⟨?_, hq.notinuse 0 hpos, hq.payload 0 hpos, hq.valid 0 hpos⟩
  rw [hq.seq 0 hpos]
  exact ⟨Int.emod_nonneg _ (by omega), Int.emod_lt_of_pos _ (by omega)⟩

/-- The acknowledgment that B sends (42_receiver.md R142). -/
theorem isAckPacket_ackFor {q : Bits32} (hq : inSeqSpace c (sint q)) (b : Receiver) : IsAckPacket c (ackFor c b q) where
  seqnum := by
    have hbit : ∀ n : BitVec 1, n.zeroExtend 32 = 0#32 ∨ n.zeroExtend 32 = 1#32 := by decide
    exact hbit b.nseq
  acknum := hq
  payload := rfl
  valid := isCorrupted_mkpkt ..

/-! What each rule hands to the channel. -/

theorem sendRule_sent (hv : ValidConfig c) (hq : SeqInv c a) {pay : List Byte} (hpay : pay.length = c.L) :
    ∀ p ∈ sentBy .a (sendRule c pay a).2.out, IsDataPacket c p := by
  rcases sendRule_cases c pay a with ⟨-, h⟩ | ⟨-, h⟩ <;> rw [h]
  · have hsent : sentBy .a (acceptSend c pay a).2.out = [mkpkt c (word a.nextseq) c.NOTINUSE pay] := by
      simp only [acceptSend]
      split <;> simp
    simpa [hsent] using isDataPacket_new hv hq hpay
  · simp

theorem ackRule_sent (p : Packet) : sentBy .a (ackRule c p a).2.out = [] := by
  rcases ackRule_cases c p a with ⟨-, h⟩ | ⟨-, -, h⟩ | ⟨-, -, -, -, h⟩ | ⟨-, -, -, -, -, h⟩ | ⟨-, -, -, -, -, h⟩ <;>
    rw [h]
  case inr.inr.inr.inr =>
    simp only [ofOut_out, slideTimers]
    split <;> simp
  all_goals rfl

theorem timeoutRule_sent (hv : ValidConfig c) (hw : WindowInv c a) (hq : SeqInv c a) :
    ∀ p ∈ sentBy .a (timeoutRule c a).out, IsDataPacket c p := by
  rcases timeoutRule_cases c a with ⟨-, h⟩ | ⟨hpos, -, h⟩ <;> rw [h]
  · simp
  · simpa using isDataPacket_oldest hv hw hq hpos

theorem acceptData_sent {p : Packet} (hq : inSeqSpace c (sint p.seqnum)) (b : Receiver) :
    ∀ k ∈ sentBy .b (acceptData c p b).2.out, IsAckPacket c k := by
  rcases acceptData_cases c p b with ⟨-, h⟩ | ⟨-, h⟩ <;> simpa [h] using isAckPacket_ackFor hq b

/-- An event that hands only well-built packets to the channel keeps the channel's invariant. -/
theorem channelInv_publish {r : Response} (h : ChannelInv s) (ha : ∀ p ∈ sentBy .a r.out, IsDataPacket s.cfg p)
    (hb : ∀ p ∈ sentBy .b r.out, IsAckPacket s.cfg p) : ChannelInv (s.publish r) :=
  ⟨fun p hp => (List.mem_append.mp hp).elim (h.1 p) (ha p), fun p hp => (List.mem_append.mp hp).elim (h.2 p) (hb p)⟩

theorem exec_channelInv (hs : SenderInv s) (hch : ChannelInv s) (hi : i.wellFormed s.cfg = true)
    (h : exec i s = .next t) : ChannelInv t := by
  have hno {r : Response} (hr : OutputsOf .a r.out) : ∀ p ∈ sentBy .b r.out, IsAckPacket s.cfg p := by
    have hnoAck : sentBy .b r.out = [] := sentBy_of_outputsOf (by decide) hr
    simp [hnoAck]
  cases exec_cases h with
  | aSend _ pay hpay hn =>
    obtain ⟨hv, -, hq⟩ := hs hn
    have hlen : pay.length = s.cfg.L := by simpa [hpay, Instr.wellFormed] using hi
    exact channelInv_publish hch (sendRule_sent hv hq hlen) (hno sendRule_outputsOf)
  | aRx _ p => exact channelInv_publish hch (by simp [ackRule_sent]) (hno ackRule_outputsOf)
  | aTimeout _ _ _ hn =>
    obtain ⟨hv, hw, hq⟩ := hs hn
    exact channelInv_publish (s := s.disarm) hch (timeoutRule_sent hv hw hq) (hno timeoutRule_outputsOf)
  | bRx _ p _ _ _ _ hr =>
    have hnoData : sentBy .a (acceptData s.cfg p s.b).2.out = [] := sentBy_of_outputsOf (by decide) acceptData_outputsOf
    exact channelInv_publish hch (by simp [hnoData]) (acceptData_sent hr s.b)
  | _ => exact channelInv_publish hch (by simp) (by simp)

theorem execIllegal_channelInv {ev : EventWord} (hch : ChannelInv s) (h : execIllegal ev s = .next t) :
    ChannelInv t := by
  rcases execIllegal_cases h with ⟨-, rfl⟩ | ⟨-, rfl⟩ <;> exact channelInv_publish hch (by simp) (by simp)

end built

/-- Settles O50: the event that a step runs was decoded, so it is well formed, and it hands on well-built packets. -/
theorem channelInvKept : Obligations.ChannelInvKept := by
  intro s t hs hch h
  rcases step_cases h with ⟨-, rfl⟩ | ⟨tr, rest, i, -, hd, h⟩ | ⟨tr, rest, ev, -, -, h⟩
  · exact hch
  · exact exec_channelInv (s := { s with inbox := rest }) hs hch (wellFormed_of_decode hd) h
  · exact execIllegal_channelInv (s := { s with inbox := rest }) hch h

/-! ### The event text (30_encoding.md R81, R82) -/

theorem length_of_mapM_eq_some {α β : Type} {f : α → Option β} {xs : List α} {ys : List β} (h : xs.mapM f = some ys) :
    ys.length = xs.length := by
  induction xs generalizing ys with
  | nil => simp_all
  | cons x xs ih =>
    simp only [List.mapM_cons, Option.bind_eq_bind, Option.bind_eq_some_iff, Option.pure_def, Option.some.injEq] at h
    obtain ⟨y, -, zs, hzs, rfl⟩ := h
    simp [ih hzs]

/-- A payload text stands for exactly `L` bytes (30_encoding.md R81). -/
theorem payloadText_value_length {c : Config} {x : PayloadText} {bs : List Byte} (h : x.value c = some bs) :
    bs.length = c.L := by
  cases x with
  | text cs =>
    obtain ⟨hlen, hcs⟩ := Option.ite_none_right_eq_some.mp h
    rw [length_of_mapM_eq_some hcs, hlen]
  | msg ch =>
    obtain ⟨b, -, rfl⟩ := Option.map_eq_some_iff.mp h
    exact List.length_replicate
  | fill b =>
    obtain rfl := Option.some.inj h
    exact List.length_replicate
  | bytes bs' =>
    obtain ⟨hlen, hbs⟩ := Option.ite_none_right_eq_some.mp h
    rwa [← Option.some.inj hbs]

/-- Settles O60: the packet of each pseudo-event is built by `mkpkt`, and a forced checksum replaces its own. -/
theorem pseudoEventsExpandToOneEvent : Obligations.PseudoEventsExpandToOneEvent := by
  refine ⟨fun c x bs => payloadText_value_length, fun c b k bw kw hb hk => ⟨?_, fun x xw hx => ?_⟩,
    fun c q qw pl bs hq hpl => ⟨?_, fun x xw hx => ?_⟩, fun c p => rfl⟩
  · simp [EventText.assemble, withForcedChecksum, hb, hk, fill]
  · simp [EventText.assemble, withForcedChecksum, hb, hk, hx, fill, mkpkt]
  · simp [EventText.assemble, withForcedChecksum, hq, hpl]
  · simp [EventText.assemble, withForcedChecksum, hq, hpl, hx, mkpkt]

end Sys2Proof.Machine
end

section
/-! PROOFS, family 40_integrity: the checksum in closed form, how it moves when a packet changes, and the two events of
the integrity unit. -/

namespace Sys2Proof.Machine

/-! ### The closed forms of the sum (40_integrity.md R100) -/

theorem word_add (x y : Int) : word (x + y) = word x + word y := BitVec.ofInt_add x y

@[simp] theorem word_sint (x : Bits32) : word (sint x) = x := BitVec.ofInt_toInt

theorem word_eq_intCast (x : Int) : word x = (x : Bits32) := rfl

section closed
variable {c : Config}

theorem ext8_of_unsigned (h : c.BYTE_SIGN = .unsigned) (b : Byte) : ext8 c b = (b.toNat : Bits32) := by
  rw [ext8, h]
  exact BitVec.eq_of_toNat_eq (by simp)

theorem ext8_of_signed (h : c.BYTE_SIGN = .signed) (b : Byte) : ext8 c b = (b.toInt : Bits32) := by
  rw [ext8, h]
  rfl

theorem computeChecksum_of_unsigned (h : c.BYTE_SIGN = .unsigned) (p : Packet) :
    computeChecksum c p = p.seqnum + p.acknum + ((p.payload.map BitVec.toNat).sum : Nat) := by
  rw [computeChecksum_eq_sum, funext (ext8_of_unsigned h), Nat.cast_list_sum, List.map_map]
  rfl

theorem computeChecksum_of_signed (h : c.BYTE_SIGN = .signed) (p : Packet) :
    computeChecksum c p = p.seqnum + p.acknum + ((p.payload.map BitVec.toInt).sum : Int) := by
  rw [computeChecksum_eq_sum, funext (ext8_of_signed h), Int.cast_list_sum, List.map_map]
  rfl

end closed

/-- Settles O14: the sum of R100 is taken through the casts of the bytes' values into the 32-bit words. -/
theorem checksumIsTheSum : Obligations.ChecksumIsTheSum := by
  refine fun c p => ⟨fun h => ?_, fun h => ?_, computeChecksum_withChecksum c p, isCorrupted_eq_true c p⟩
  · simp [computeChecksum_of_unsigned h, -Nat.cast_list_sum]
  · rw [computeChecksum_of_signed h, word_add, word_add, word_sint, word_sint, word_eq_intCast]

/-! ### How the checksum moves when a packet changes -/

section changes
variable (c : Config) (p : Packet)

theorem ext8_injective : Function.Injective (ext8 c) := by
  intro x y h
  cases hs : c.BYTE_SIGN with
  | unsigned =>
    simp only [ext8, hs] at h
    bv_omega
  | signed =>
    simp only [ext8, hs] at h
    refine BitVec.eq_of_toInt_eq ?_
    rw [← BitVec.toInt_signExtend_of_le (by decide : 8 ≤ 32), h, BitVec.toInt_signExtend_of_le (by decide)]

theorem computeChecksum_withSeqnum (v : Bits32) :
    computeChecksum c { p with seqnum := v } = computeChecksum c p + (v - p.seqnum) := by
  simp only [computeChecksum_eq_sum]
  ring

theorem computeChecksum_withAcknum (v : Bits32) :
    computeChecksum c { p with acknum := v } = computeChecksum c p + (v - p.acknum) := by
  simp only [computeChecksum_eq_sum]
  ring

theorem computeChecksum_setByte {n : Nat} {x : Byte} (h : p.payload[n]? = some x) (y : Byte) :
    computeChecksum c { p with payload := p.payload.set n y } = computeChecksum c p + (ext8 c y - ext8 c x) := by
  obtain ⟨hn, rfl⟩ := List.getElem?_eq_some_iff.mp h
  simp only [computeChecksum_eq_sum, List.map_set, List.sum_set', List.length_map, dif_pos hn, List.getElem_map]
  ring

variable {c p}

/-- A valid packet stays valid exactly if its checksum field moves as its sum does. -/
theorem isCorrupted_eq_false_iff_of_valid (h : isCorrupted c p = false) (q : Packet) :
    isCorrupted c q = false ↔ q.checksum - p.checksum = computeChecksum c q - computeChecksum c p := by
  rw [isCorrupted_eq_false] at h ⊢
  rw [h, sub_left_inj]

/-- A valid packet whose sum moves by a nonzero amount while its checksum field stays is corrupted. -/
theorem isCorrupted_of_sum_moved (h : isCorrupted c p = false) {q : Packet} {d : Bits32}
    (hcs : q.checksum = p.checksum) (hsum : computeChecksum c q = computeChecksum c p + d) (hd : d ≠ 0#32) :
    isCorrupted c q = true := by
  rw [isCorrupted_eq_false] at h
  rw [isCorrupted_eq_true, hcs, hsum, h]
  simpa using hd

/-- 40_integrity.md R105: two bytes of a valid packet change, one after the other, and the changes to the sum cancel. -/
theorem isCorrupted_setBytes_of_cancel (h : isCorrupted c p = false) {m n : Nat} {x y x' y' : Byte}
    (hx : p.payload[m]? = some x) (hy : (p.payload.set m x')[n]? = some y)
    (hsum : (ext8 c x' - ext8 c x) + (ext8 c y' - ext8 c y) = 0) :
    isCorrupted c { p with payload := (p.payload.set m x').set n y' } = false := by
  rw [isCorrupted_eq_false_iff_of_valid h, computeChecksum_setByte c { p with payload := p.payload.set m x' } hy,
    computeChecksum_setByte c p hx, add_assoc, hsum]
  simp

end changes

/-- Settles O15: a change of one field or byte moves the sum or the stored checksum, and not both. -/
theorem singleFieldChangeIsDetected : Obligations.SingleFieldChangeIsDetected := by
  refine fun c p h => ⟨fun v hv => ?_, fun v hv => ?_, fun v hv => ?_, fun n x y hx hy => ?_⟩
  · exact isCorrupted_of_sum_moved h rfl (computeChecksum_withSeqnum c p v) (sub_ne_zero.mpr hv)
  · exact isCorrupted_of_sum_moved h rfl (computeChecksum_withAcknum c p v) (sub_ne_zero.mpr hv)
  · rwa [isCorrupted_eq_true, computeChecksum_withChecksum, ← (isCorrupted_eq_false c p).mp h]
  · exact isCorrupted_of_sum_moved h rfl (computeChecksum_setByte c p hx y)
      (sub_ne_zero.mpr ((ext8_injective c).ne hy))

/-- Settles O16: the two byte changes move the sum by amounts that cancel, and `d` moves sum and checksum alike. -/
theorem cancellingChangesAreUndetected : Obligations.CancellingChangesAreUndetected := by
  refine fun c p h => ⟨fun q => (isCorrupted_eq_false_iff_of_valid h q).mpr,
    fun m n x y x' y' hne hx hy hx' hy' => ?_, fun m n x y hx hy => ?_, fun d => ?_⟩
  · have hy₁ : (p.payload.set m x')[n]? = some y := by rwa [List.getElem?_set_ne hne]
    refine isCorrupted_setBytes_of_cancel h hx hy₁ ?_
    rw [hx', hy']
    ring
  · have hy₁ : (p.payload.set m y)[n]? = some y := by
      rcases eq_or_ne m n with rfl | hne
      · exact List.getElem?_set_self (List.getElem?_eq_some_iff.mp hx).1
      · rwa [List.getElem?_set_ne hne]
    refine isCorrupted_setBytes_of_cancel h hx hy₁ ?_
    ring
  · refine (isCorrupted_eq_false_iff_of_valid h _).mpr ?_
    rw [computeChecksum_withChecksum c { p with seqnum := p.seqnum + d }, computeChecksum_withSeqnum]
    ring

/-! ### The events of the integrity unit (40_integrity.md R102, R103) -/

/-- Settles O17: an event of the integrity unit passes check 1 of admission, and its response has no output. -/
theorem computeReturnsTheChecksum : Obligations.ComputeReturnsTheChecksum := by
  intro s p hf
  have hrun : exec (.ckCompute p) s =
      .next (s.publish { Response.of .ckDone with ckv := computeChecksum s.cfg p }) := unlessFaulted_of_noFault hf _
  rw [hrun, publish_of_out_nil rfl]
  rfl

/-- Settles O18: as O17, with the corruption test in place of the checksum. -/
theorem verifyReturnsTheCorruptionTest : Obligations.VerifyReturnsTheCorruptionTest := by
  intro s p hf
  have hrun : exec (.ckVerify p) s =
      .next (s.publish { Response.of .ckDone with cor := isCorrupted s.cfg p }) := unlessFaulted_of_noFault hf _
  rw [hrun, publish_of_out_nil rfl]
  rfl

end Sys2Proof.Machine
end

section
/-! PROOFS, family 41_sender: invariants over steps, what sending, tagging and sliding leave of the window, and the range
test. -/

namespace Sys2Proof.Machine

/-! ### Invariants over steps -/

/-- An event word outside the opcode map writes the fault record and the response only. -/
theorem execIllegal_eq {ev : EventWord} {s t : State} (h : execIllegal ev s = .next t) :
    ∃ f r, f.reg ≠ 0#8 ∧ t = { s with fault := f, resp := r } := by
  rcases execIllegal_cases h with ⟨hf, rfl⟩ | ⟨-, rfl⟩ <;> rw [publish_of_out_nil rfl]
  · exact ⟨s.fault, _, hf, rfl⟩
  · exact ⟨_, _, mask_ne_zero _, rfl⟩

/-- Every step keeps what does not depend on the inbox, if every well-formed event and every event word outside the
opcode map keeps it. -/
theorem step_keeps {P : State → Prop} (hinbox : ∀ s ts, P s → P { s with inbox := ts })
    (hexec : ∀ i s t, i.wellFormed s.cfg = true → P s → exec i s = .next t → P t)
    (hillegal : ∀ ev s t, P s → execIllegal ev s = .next t → P t) {s t : State} (hs : P s) (h : step s = .next t) :
    P t := by
  rcases step_cases h with ⟨-, rfl⟩ | ⟨tr, rest, i, -, hd, h⟩ | ⟨tr, rest, ev, -, -, h⟩
  · exact hs
  · exact hexec i { s with inbox := rest } t (wellFormed_of_decode hd) (hinbox s rest hs) h
  · exact hillegal ev { s with inbox := rest } t (hinbox s rest hs) h

/-- 70_reset_and_hazards.md R191: no clause of 00_scope.md R7 is violated exactly when the configuration is valid. -/
theorem firstViolatedClause_eq_zero (c : Config) : firstViolatedClause c = 0 ↔ ValidConfig c := by
  rw [firstViolatedClause, firstFalse_eq_zero 1 Nat.one_pos]
  simp only [configClauses, List.forall_mem_cons, decide_eq_true_eq, lastackResetLegal_eq_true]
  constructor
  · rintro ⟨hW, hratio, hS, hn, hb, hl, hL, hR, -⟩
    exact ⟨hW, hratio, hS, hn, hb, hl, hL, hR⟩
  · rintro ⟨hW, hratio, hS, hn, hb, hl, hL, hR⟩
    exact ⟨hW, hratio, hS, hn, hb, hl, hL, hR, by simp⟩

/-! ### The window's base (41_sender.md R123)

`Sender.base` is the number of the oldest slot and, with an empty window, of the next packet. Counted from it, the
sequence numbers are consecutive whether the window is empty or not. -/

section base
variable {c : Config} {a : Sender}

theorem seqSpace_pos (hv : ValidConfig c) : (0 : Int) < c.S := by
  have hW := hv.window_pos
  have hS := hv.seq_ratio
  omega

/-- Every number modulo `S` is in the sequence space. -/
theorem inSeqSpace_emod (hv : ValidConfig c) (x : Int) : inSeqSpace c (x % c.S) :=
  ⟨Int.emod_nonneg _ (seqSpace_pos hv).ne', Int.emod_lt_of_pos _ (seqSpace_pos hv)⟩

theorem nextseq_eq_base_add (h : a.nextseq < c.S) : (a.nextseq : Int) = (a.base c + a.count) % c.S := by
  rw [Sender.base, Int.emod_add_emod, Int.sub_add_cancel, Int.emod_eq_of_lt (by omega) (by omega)]

/-- With packets in flight the base is the oldest slot's number. -/
theorem base_eq_lo (hw : WindowInv c a) (hq : SeqInv c a) (hp : 0 < a.count) : a.base c = a.lo := by
  have hlo : (a.lo + (0 : Nat)) % c.S = a.lo := by
    rw [← hq.seq 0 hp, lo_eq_slotPos hw.addressable.2.2.1]
  rw [Sender.base, hq.next_eq hp, Int.emod_sub_emod, Int.add_sub_cancel]
  simpa using hlo

/-- SeqInv counted from the base, as one statement of each position: the packet there is one that A built, and its
number lies that many positions ahead of the base. -/
theorem seqInv_iff (hv : ValidConfig c) (hw : WindowInv c a) : SeqInv c a ↔
    a.nextseq < c.S ∧ (a.lastack_v = true → a.lastack < c.S) ∧
      ∀ j < a.count, IsDataPacket c (a.slotPos c j).pkt ∧
        sint (a.slotPos c j).pkt.seqnum = (a.base c + j) % c.S := by
  constructor
  · intro hq
    refine ⟨hq.next_lt, hq.lastack_lt, fun j hj => ?_⟩
    have hseq := hq.seq j hj
    have hspace : inSeqSpace c (sint (a.slotPos c j).pkt.seqnum) := hseq ▸ inSeqSpace_emod hv _
    exact ⟨⟨hspace, hq.notinuse j hj, hq.payload j hj, hq.valid j hj⟩,
      by rw [hseq, base_eq_lo hw hq (by omega)]⟩
  · rintro ⟨hnext, hlast, hpos⟩
    have hlo (hp : 0 < a.count) : a.lo = a.base c := by
      rw [lo_eq_slotPos hw.addressable.2.2.1, (hpos 0 hp).2, Int.natCast_zero, Int.add_zero, Sender.base, Int.emod_emod]
    exact {
      next_lt := hnext
      lastack_lt := hlast
      seq := fun j hj => by rw [hlo (by omega)]; exact (hpos j hj).2
      notinuse := fun j hj => (hpos j hj).1.acknum
      valid := fun j hj => (hpos j hj).1.valid
      payload := fun j hj => (hpos j hj).1.payload
      next_eq := fun hp => by rw [hlo hp]; exact nextseq_eq_base_add hnext }

end base

/-! ### What a sender's rule leaves of the invariants

A.RX and A.SEND change the sender in four ways: they write registers beside the window, append a packet, tag a slot, or
slide. Each keeps WindowInv and SeqInv. -/

/-- `a` with lastACK and the diagnostic counters in place of its own: the registers that are no part of the window. -/
def Sender.withRegisters (a : Sender) (v : Bool) (k : Nat) (x y z : Bits32) : Sender :=
  { a with lastack_v := v, lastack := k, cnt_wfull := x, cnt_ackcorrupt := y, cnt_ackdup := z }

/-- `a` with the window moved past its `n` oldest slots, which are EMPTY (41_sender.md R115). -/
def Sender.slideBy (c : Config) (n : Nat) (a : Sender) : Sender :=
  { a with buf := (clearOldest c n a).buf, first := (a.first + n) % c.W, count := a.count - n, trail := 0 }

section keeps
variable {c : Config} {a : Sender}

theorem windowInv_withRegisters (hw : WindowInv c a) (v : Bool) (k : Nat) (x y z : Bits32) :
    WindowInv c (a.withRegisters v k x y z) :=
  ⟨hw.addressable, hw.count_le, hw.last_eq, hw.occupied, hw.free, hw.oldest, hw.trail⟩

theorem seqInv_withRegisters (hq : SeqInv c a) {v : Bool} {k : Nat} (hk : v = true → k < c.S) (x y z : Bits32) :
    SeqInv c (a.withRegisters v k x y z) :=
  ⟨hq.next_lt, hk, hq.seq, hq.notinuse, hq.valid, hq.payload, hq.next_eq⟩

/-! A.SEND -/

theorem windowInv_acceptSend (hw : WindowInv c a) (hroom : a.count < c.W) (pay : List Byte) :
    WindowInv c (acceptSend c pay a).1 := by
  obtain ⟨hW, hlen, hfirst, -⟩ := hw.addressable
  have hslot {j : Nat} (hj : j < c.W) := acceptSend_slotPos hw hroom pay hj
  refine ⟨⟨hW, ?_, hfirst, Nat.mod_lt _ hW⟩, hroom, ?_, fun j hj => ?_, fun j hj hc => ?_, fun _ => ?_, hw.trail⟩
  · simpa [acceptSend] using hlen
  · change (a.last + 1) % c.W = (a.first + (a.count + 1) + (c.W - 1)) % c.W
    rw [next_index hw, Sender.indexOf, show a.first + (a.count + 1) + (c.W - 1) = a.first + a.count + c.W by omega,
      Nat.add_mod_right]
  · change j < a.count + 1 at hj
    rw [hslot (by omega)]
    split
    · simp
    · exact hw.occupied j (by omega)
  · change a.count + 1 ≤ j at hc
    rw [hslot hj, if_neg (by omega)]
    exact hw.free j hj (by omega)
  · rw [hslot hW]
    split
    · rfl
    · exact hw.oldest (by omega)

@[simp] theorem base_acceptSend (pay : List Byte) : (acceptSend c pay a).1.base c = a.base c := by
  change ((((a.nextseq + 1) % c.S : Nat) : Int) - ((a.count + 1 : Nat) : Int)) % (c.S : Int) = _
  rw [Int.natCast_emod, Int.emod_sub_emod, Sender.base]
  congr 1
  push_cast
  ring

theorem seqInv_acceptSend (hv : ValidConfig c) (hw : WindowInv c a) (hq : SeqInv c a) (hroom : a.count < c.W)
    {pay : List Byte} (hpay : pay.length = c.L) : SeqInv c (acceptSend c pay a).1 := by
  have hS := hv.seq_le
  obtain ⟨hnext, hlast, hpos⟩ := (seqInv_iff hv hw).mp hq
  refine (seqInv_iff hv (windowInv_acceptSend hw hroom pay)).mpr ⟨Nat.mod_lt _ (by omega), hlast, fun j hj => ?_⟩
  change j < a.count + 1 at hj
  rw [acceptSend_slotPos hw hroom pay (by omega), base_acceptSend]
  split
  next he =>
    refine ⟨isDataPacket_new hv hq hpay, ?_⟩
    rw [mkpkt_seqnum, sint_word_of_lt (by omega), he]
    exact nextseq_eq_base_add hnext
  next => exact hpos j (by omega)

/-! Tagging a slot that is not the oldest -/

theorem windowInv_setTag (hw : WindowInv c a) {j : Nat} (h1 : 1 ≤ j) (hj : j < a.count) {t : SlotTag}
    (ht : t ≠ .empty) : WindowInv c (a.setTag (a.indexOf c j) t) := by
  have hc := hw.count_le
  have hslot {i : Nat} (hi : i < c.W) := setTag_slotPos hw (show j < c.W by omega) t hi
  obtain ⟨hW, hlen, hfirst, hlast⟩ := hw.addressable
  refine ⟨⟨hW, by simpa using hlen, hfirst, hlast⟩, hc, hw.last_eq, fun i hi => ?_, fun i hi hci => ?_, fun hp => ?_,
    hw.trail⟩
  · change i < a.count at hi
    rw [hslot (by omega)]
    split
    · exact ht
    · exact hw.occupied i hi
  · change a.count ≤ i at hci
    rw [hslot hi, if_neg (by omega)]
    exact hw.free i hi hci
  · rw [hslot hW, if_neg (by omega)]
    exact hw.oldest hp

@[simp] theorem slotPos_setTag_pkt (i j : Nat) (t : SlotTag) :
    ((a.setTag i t).slotPos c j).pkt = (a.slotPos c j).pkt := slotAt_setTag_pkt ..

theorem seqInv_setTag (hq : SeqInv c a) (i : Nat) (t : SlotTag) : SeqInv c (a.setTag i t) where
  next_lt := hq.next_lt
  lastack_lt := hq.lastack_lt
  seq j hj := by simpa using hq.seq j hj
  notinuse j hj := by simpa using hq.notinuse j hj
  valid j hj := by simpa using hq.valid j hj
  payload j hj := by simpa using hq.payload j hj
  next_eq hp := by simpa using hq.next_eq hp

/-! A slide -/

theorem slideBy_slotPos (hw : WindowInv c a) {n j : Nat} (hn : n ≤ a.count) (hj : j < c.W) :
    (a.slideBy c n).slotPos c j =
      if n + j < c.W then a.slotPos c (n + j) else ⟨.empty, (a.slotPos c (n + j - c.W)).pkt⟩ :=
  slide_slotPos hw hn rfl hj

theorem slideBy_slotPos_of_lt (hw : WindowInv c a) {n j : Nat} (hn : n ≤ a.count) (hj : n + j < c.W) :
    (a.slideBy c n).slotPos c j = a.slotPos c (n + j) := by
  rw [slideBy_slotPos hw hn (by omega), if_pos hj]

/-- A slide stops at a slot that is not ACKED, so the new oldest slot is INFLIGHT (41_sender.md R124). -/
theorem windowInv_slideBy (hw : WindowInv c a) {n : Nat} (hn : n ≤ a.count)
    (hstop : n < a.count → (a.slotPos c n).tag ≠ .acked) : WindowInv c (a.slideBy c n) := by
  have hc := hw.count_le
  obtain ⟨hW, hlen, hfirst, hlast⟩ := hw.addressable
  refine ⟨⟨hW, (clearOldest_buf_length ..).trans hlen, Nat.mod_lt _ hW, hlast⟩, Nat.sub_le_of_le_add (by omega), ?_,
    fun j hj => ?_, fun j hj hcj => ?_, fun hp => ?_, rfl⟩
  · change a.last = ((a.first + n) % c.W + (a.count - n) + (c.W - 1)) % c.W
    rw [hw.last_eq, Nat.add_assoc (_ % _), Nat.mod_add_mod]
    congr 1
    omega
  · change j < a.count - n at hj
    rw [slideBy_slotPos_of_lt hw hn (by omega)]
    exact hw.occupied _ (by omega)
  · change a.count - n ≤ j at hcj
    rw [slideBy_slotPos hw hn hj]
    split
    next h => exact hw.free _ h (by omega)
    next => rfl
  · change 0 < a.count - n at hp
    rw [slideBy_slotPos_of_lt hw hn (by omega)]
    have hocc := hw.occupied n (by omega)
    have hack := hstop (by omega)
    cases ht : (a.slotPos c n).tag with
    | empty => exact absurd ht hocc
    | inflight => rfl
    | acked => exact absurd ht hack

theorem base_slideBy {n : Nat} (hn : n ≤ a.count) : (a.slideBy c n).base c = (a.base c + n) % c.S := by
  change ((a.nextseq : Int) - ((a.count - n : Nat) : Int)) % (c.S : Int) = _
  rw [Sender.base, Int.emod_add_emod]
  congr 1
  omega

theorem seqInv_slideBy (hv : ValidConfig c) (hw : WindowInv c a) (hq : SeqInv c a) {n : Nat} (hn : n ≤ a.count)
    (hstop : n < a.count → (a.slotPos c n).tag ≠ .acked) : SeqInv c (a.slideBy c n) := by
  have hc := hw.count_le
  obtain ⟨hnext, hlast, hpos⟩ := (seqInv_iff hv hw).mp hq
  refine (seqInv_iff hv (windowInv_slideBy hw hn hstop)).mpr ⟨hnext, hlast, fun j hj => ?_⟩
  change j < a.count - n at hj
  rw [slideBy_slotPos_of_lt hw hn (by omega), base_slideBy hn, Int.emod_add_emod, Int.add_assoc, ← Int.natCast_add]
  exact hpos (n + j) (by omega)

end keeps

/-! ### The range test and the slot it finds (41_sender.md R113, R114, R125) -/

theorem inRange_of_outside {c : Config} {k : Int} (a : Sender) (h : k < 0 ∨ (c.S : Int) ≤ k) : inRange c a k = false :=
  if_pos h

theorem inRange_of_inside {c : Config} {k : Int} (a : Sender) (h : inSeqSpace c k) :
    inRange c a k = if a.lo ≤ a.hi then decide (a.lo ≤ k ∧ k ≤ a.hi) else decide (a.lo ≤ k ∨ k ≤ a.hi) :=
  if_neg (by omega)

section range
variable {c : Config} {a : Sender}

/-- The distance from `x` ahead to `y` in the sequence space. -/
theorem emod_sub_of_inSeqSpace {x y : Int} (hx : inSeqSpace c x) (hy : inSeqSpace c y) :
    (y - x) % c.S = if x ≤ y then y - x else y - x + c.S := by
  split
  · exact Int.emod_eq_of_lt (by omega) (by omega)
  · rw [← Int.add_emod_right, Int.emod_eq_of_lt (by omega) (by omega)]

/-- A number `d` positions behind another is `S - d` positions ahead of it. -/
theorem neg_emod_of_le {S d : Nat} (h1 : 1 ≤ d) (hd : d ≤ S) : -(d : Int) % S = S - d := by
  rw [← Int.add_emod_right, Int.emod_eq_of_lt (by omega) (by omega)]
  omega

theorem inSeqSpace_slotPos (hv : ValidConfig c) (hq : SeqInv c a) {j : Nat} (hj : j < a.count) :
    inSeqSpace c (sint (a.slotPos c j).pkt.seqnum) := hq.seq j hj ▸ inSeqSpace_emod hv _

theorem inSeqSpace_lo (hv : ValidConfig c) (hw : WindowInv c a) (hq : SeqInv c a) (hp : 0 < a.count) :
    inSeqSpace c a.lo := lo_eq_slotPos hw.addressable.2.2.1 ▸ inSeqSpace_slotPos hv hq hp

theorem hi_eq_slotPos (hw : WindowInv c a) (hp : 0 < a.count) : a.hi = sint (a.slotPos c (a.count - 1)).pkt.seqnum := by
  rw [Sender.hi, last_index hw hp, Sender.slotPos]

/-- The slot at position `j` holds the number `j` positions ahead of the oldest's. -/
theorem offset_slotPos (hv : ValidConfig c) (hw : WindowInv c a) (hq : SeqInv c a) {j : Nat} (hj : j < a.count) :
    (sint (a.slotPos c j).pkt.seqnum - a.lo) % c.S = j := by
  have hc := hw.count_le
  have hS := hv.seq_ratio
  rw [hq.seq j hj, Int.emod_sub_emod, add_sub_cancel_left, Int.emod_eq_of_lt (by omega) (by omega)]

/-- A number fewer than `A.count` positions ahead of the oldest's is that of the slot at its position. -/
theorem slotPos_of_offset (hq : SeqInv c a) {k : Int} (hk : inSeqSpace c k) {j : Nat} (hj : j < a.count)
    (h : (k - a.lo) % c.S = j) : sint (a.slotPos c j).pkt.seqnum = k := by
  rw [hq.seq j hj, ← h, Int.add_emod_emod, add_sub_cancel, Int.emod_eq_of_lt hk.1 hk.2]

/-- 41_sender.md R125: the newest slot is `A.count - 1` positions ahead, so the two cases of the test are the two ways
in which the distance from the oldest can wrap. -/
theorem inRange_iff (hv : ValidConfig c) (hw : WindowInv c a) (hq : SeqInv c a) (hp : 0 < a.count) (k : Int) :
    inRange c a k = true ↔ inSeqSpace c k ∧ (k - a.lo) % (c.S : Int) < a.count := by
  by_cases hk : inSeqSpace c k
  · have hlo := inSeqSpace_lo hv hw hq hp
    have hhi : inSeqSpace c a.hi := hi_eq_slotPos hw hp ▸ inSeqSpace_slotPos hv hq (by omega)
    have hnewest : (a.hi - a.lo) % (c.S : Int) = (a.count - 1 : Nat) :=
      hi_eq_slotPos hw hp ▸ offset_slotPos hv hw hq (by omega)
    rw [emod_sub_of_inSeqSpace hlo hhi] at hnewest
    rw [inRange_of_inside a hk, emod_sub_of_inSeqSpace hlo hk]
    by_cases hwrap : a.lo ≤ a.hi
    · rw [if_pos hwrap] at hnewest ⊢
      rw [decide_eq_true_iff]
      split <;> omega
    · rw [if_neg hwrap] at hnewest ⊢
      rw [decide_eq_true_iff]
      split <;> omega
  · rw [inRange_of_outside a (by omega)]
    simp [hk]

/-- 41_sender.md R114: an in-range number other than the oldest's is held by the slot at a later position, its distance
from the oldest's number, and sackIndex is that slot. -/
theorem exists_later_position (hv : ValidConfig c) (hw : WindowInv c a) (hq : SeqInv c a) (hp : 0 < a.count)
    {k : Int} (h : inRange c a k = true) (hne : k ≠ a.lo) :
    ∃ j, 1 ≤ j ∧ j < a.count ∧ sackIndex c a k = a.indexOf c j ∧ sint (a.slotPos c j).pkt.seqnum = k := by
  obtain ⟨hk, hlt⟩ := (inRange_iff hv hw hq hp k).mp h
  obtain ⟨j, hoff⟩ := Int.eq_ofNat_of_zero_le (Int.emod_nonneg (k - a.lo) (seqSpace_pos hv).ne')
  have hj : j < a.count := by omega
  have hseq := slotPos_of_offset hq hk hj hoff
  have h0 : j ≠ 0 := by
    rintro rfl
    exact hne (hseq ▸ (lo_eq_slotPos hw.addressable.2.2.1).symm)
  exact ⟨j, by omega, hj, by rw [sackIndex, hoff, Int.toNat_natCast, Sender.indexOf], hseq⟩

/-- The oldest slot's number is in range. -/
theorem inRange_lo (hv : ValidConfig c) (hw : WindowInv c a) (hq : SeqInv c a) (hp : 0 < a.count) :
    inRange c a a.lo = true :=
  (inRange_iff hv hw hq hp _).mpr ⟨inSeqSpace_lo hv hw hq hp, by simpa using hp⟩

end range

end Sys2Proof.Machine
end

section
/-! PROOFS, family 41_sender: every event keeps the sender's invariant. -/

namespace Sys2Proof.Machine

/-! ### What A.RX does to the window -/

section ack
variable {c : Config} {a : Sender}

theorem windowInv_acceptAck (hw : WindowInv c a) (k : Int) : WindowInv c (a.acceptAck k) :=
  windowInv_withRegisters hw true k.toNat a.cnt_wfull a.cnt_ackcorrupt a.cnt_ackdup

theorem seqInv_acceptAck (hq : SeqInv c a) {k : Int} (hk : inSeqSpace c k) : SeqInv c (a.acceptAck k) :=
  seqInv_withRegisters hq (fun _ => by omega) a.cnt_wfull a.cnt_ackcorrupt a.cnt_ackdup

/-- The ways in which A.RX with acknum `k` can change the sender `a` (41_sender.md R112, R114, R115). -/
inductive AckEffect (c : Config) (k : Int) (a : Sender) : Sender → Prop
  | discard (x y : Bits32) : AckEffect c k a (a.withRegisters a.lastack_v a.lastack a.cnt_wfull x y)
  | sack (j : Nat) (h1 : 1 ≤ j) (hj : j < a.count) (hk : sint (a.slotPos c j).pkt.seqnum = k) :
      AckEffect c k a ((a.acceptAck k).setTag (a.indexOf c j) .acked)
  | slide (n : Nat) (h1 : 1 ≤ n) (hn : n ≤ a.count) (hk : k = a.lo)
      (hacked : ∀ j, 1 ≤ j → j < n → (a.slotPos c j).tag = .acked)
      (hstop : n < a.count → (a.slotPos c n).tag ≠ .acked) : AckEffect c k a ((a.acceptAck k).slideBy c n)

/-- `slide()` after an acknowledgment is accepted (41_sender.md R115). -/
theorem exists_slideBy (hp : 0 < a.count) (k : Int) :
    ∃ n, 1 ≤ n ∧ n ≤ a.count ∧ (∀ j, 1 ≤ j → j < n → (a.slotPos c j).tag = .acked) ∧
      (n < a.count → (a.slotPos c n).tag ≠ .acked) ∧ slide c (a.acceptAck k) = (a.acceptAck k).slideBy c n :=
  slide_spec c (a.acceptAck k) hp

theorem ackRule_effect (hv : ValidConfig c) (hw : WindowInv c a) (hq : SeqInv c a) (p : Packet) :
    AckEffect c (sint p.acknum) a (ackRule c p a).1 := by
  rcases ackRule_cases c p a with
    ⟨-, h⟩ | ⟨-, -, h⟩ | ⟨-, -, -, -, h⟩ | ⟨-, hp, -, hr, hk, h⟩ | ⟨-, hp, -, -, hk, h⟩ <;> rw [h]
  · exact .discard (a.cnt_ackcorrupt + 1#32) a.cnt_ackdup
  · exact .discard a.cnt_ackcorrupt (a.cnt_ackdup + 1#32)
  · exact .discard a.cnt_ackcorrupt (a.cnt_ackdup + 1#32)
  · obtain ⟨j, h1, hj, hix, hseq⟩ := exists_later_position hv hw hq hp hr hk
    rw [hix]
    exact .sack j h1 hj hseq
  · obtain ⟨n, h1, hn, hacked, hstop, hs⟩ := exists_slideBy (c := c) hp (sint p.acknum)
    rw [hs]
    exact .slide n h1 hn hk hacked hstop

/-- A.RX keeps the window and its sequence numbers. -/
theorem ackEffect_inv (hv : ValidConfig c) (hw : WindowInv c a) (hq : SeqInv c a) {k : Int} {b : Sender}
    (h : AckEffect c k a b) : WindowInv c b ∧ SeqInv c b := by
  cases h with
  | discard x y => exact ⟨windowInv_withRegisters hw .., seqInv_withRegisters hq hq.lastack_lt ..⟩
  | sack j h1 hj hk =>
    exact ⟨windowInv_setTag (windowInv_acceptAck hw _) h1 hj (by decide),
      seqInv_setTag (seqInv_acceptAck hq (hk ▸ inSeqSpace_slotPos hv hq hj)) ..⟩
  | slide n h1 hn hk hacked hstop =>
    have hlo : inSeqSpace c k := hk ▸ inSeqSpace_lo hv hw hq (by omega)
    exact ⟨windowInv_slideBy (windowInv_acceptAck hw _) hn hstop,
      seqInv_slideBy hv (windowInv_acceptAck hw _) (seqInv_acceptAck hq hlo) hn hstop⟩

/-- A.SEND keeps the window and its sequence numbers. -/
theorem sendRule_inv (hv : ValidConfig c) (hw : WindowInv c a) (hq : SeqInv c a) {pay : List Byte}
    (hpay : pay.length = c.L) : WindowInv c (sendRule c pay a).1 ∧ SeqInv c (sendRule c pay a).1 := by
  rcases sendRule_cases c pay a with ⟨hroom, h⟩ | ⟨-, h⟩ <;> rw [h]
  · exact ⟨windowInv_acceptSend hw hroom pay, seqInv_acceptSend hv hw hq hroom hpay⟩
  · exact ⟨windowInv_withRegisters hw .., seqInv_withRegisters hq hq.lastack_lt ..⟩

end ack

/-! A.INIT -/

section init
variable {c : Config} (a : Sender)

@[simp] theorem initSender_slotAt_tag (i : Nat) : ((initSender c a).slotAt i).tag = .empty := by
  by_cases h : i < c.W <;> simp [Sender.slotAt, initSender, emptiedBuf, h]

theorem windowInv_initSender (hv : ValidConfig c) : WindowInv c (initSender c a) := by
  have hW := hv.window_pos
  refine ⟨⟨hW, by simp [initSender, emptiedBuf], hW, Nat.sub_lt hW Nat.one_pos⟩, Nat.zero_le _, ?_, ?_, ?_, ?_, rfl⟩
  · change c.W - 1 = (0 + 0 + (c.W - 1)) % c.W
    rw [Nat.add_zero, Nat.zero_add, Nat.mod_eq_of_lt (Nat.sub_lt hW Nat.one_pos)]
  · exact fun j hj => absurd hj (Nat.not_lt_zero j)
  · exact fun j _ _ => initSender_slotAt_tag a _
  · exact fun hp => absurd hp (Nat.lt_irrefl 0)

theorem seqInv_initSender (hv : ValidConfig c) : SeqInv c (initSender c a) := by
  refine (seqInv_iff hv (windowInv_initSender a hv)).mpr ⟨Int.natCast_pos.mp (seqSpace_pos hv), fun hsome => ?_,
    fun j hj => absurd hj (Nat.not_lt_zero j)⟩
  obtain ⟨k, hk⟩ := Option.isSome_iff_exists.mp hsome
  have hspace := hv.lastack k hk
  simp only [initSender, hk, Option.getD_some]
  omega

end init

/-! ### The sender's invariant over every event (41_sender.md R121 to R124, R129) -/

theorem exec_senderInv {i : Instr} {s t : State} (hi : i.wellFormed s.cfg = true) (hs : SenderInv s)
    (h : exec i s = .next t) : SenderInv t := by
  cases exec_cases h with
  | aInit _ _ _ hc =>
    have hv := (firstViolatedClause_eq_zero s.cfg).mp hc
    exact fun _ => ⟨hv, windowInv_initSender s.a hv, seqInv_initSender s.a hv⟩
  | aSend _ pay hpay hn =>
    obtain ⟨hv, hw, hq⟩ := hs hn
    have hlen : pay.length = s.cfg.L := by simpa [hpay, Instr.wellFormed] using hi
    exact fun _ => ⟨hv, sendRule_inv hv hw hq hlen⟩
  | aRx _ p _ hn =>
    obtain ⟨hv, hw, hq⟩ := hs hn
    exact fun _ => ⟨hv, ackEffect_inv hv hw hq (ackRule_effect hv hw hq p)⟩
  | _ => exact hs

theorem execIllegal_senderInv {ev : EventWord} {s t : State} (hs : SenderInv s) (h : execIllegal ev s = .next t) :
    SenderInv t := by
  obtain ⟨f, r, -, rfl⟩ := execIllegal_eq h
  exact hs

/-- Settles O48: each event either leaves the window or changes it in a way that keeps its shape and its numbers. -/
theorem senderInvKept : Obligations.SenderInvKept := fun _ _ =>
  step_keeps (fun _ _ hs => hs) (fun _ _ _ => exec_senderInv) (fun _ _ _ => execIllegal_senderInv)

end Sys2Proof.Machine
end

section
/-! PROOFS, family 41_sender: what each event of a ready sender does, and what the sender puts out. -/

namespace Sys2Proof.Machine

/-! ### The events of a ready sender -/

section ready
variable {s : State} (h : SenderReady s)
include h

theorem exec_aSend_of_ready (pay : List Byte) : exec (.aSend pay) s =
    .next (State.publish { s with a := (sendRule s.cfg pay s.a).1 } (sendRule s.cfg pay s.a).2) :=
  admitSender_of_ready h.noFault h.init h.addressable _

theorem exec_aRx_of_ready (p : Packet) : exec (.aRx p) s =
    .next (State.publish { s with a := (ackRule s.cfg p s.a).1 } (ackRule s.cfg p s.a).2) :=
  admitSender_of_ready h.noFault h.init h.addressable _

theorem exec_aTimeout_of_ready (he : s.expiryAllowed) : exec .aTimeout s =
    .next (s.disarm.publish (timeoutRule s.cfg s.a)) := by
  rw [exec, execATimeout, presentExpiry_of_allowed he]
  exact admitSender_of_ready (s := s.disarm) h.noFault h.init h.addressable _

end ready

/-! ### The branches of the sender's rules -/

section branches
variable {c : Config} {a : Sender} {p : Packet}

theorem sendRule_of_room (h : a.count < c.W) (pay : List Byte) : sendRule c pay a = acceptSend c pay a := if_pos h

theorem sendRule_of_full (h : c.W ≤ a.count) (pay : List Byte) :
    sendRule c pay a = (a.countFull, Response.of .sendFull) := if_neg (Nat.not_lt.mpr h)

theorem ackRule_of_corrupted (h : isCorrupted c p = true) :
    ackRule c p a = (a.countCorrupt, Response.of .ackCorrupt) := if_pos h

theorem ackRule_of_duplicate (h : isCorrupted c p = false) (hd : a.count = 0 ∨ a.repeatsLastAck (sint p.acknum)) :
    ackRule c p a = (a.countDup, Response.of .ackDup) := by
  rw [ackRule, if_neg (by simp [h]), if_pos hd]

section new
variable (h : isCorrupted c p = false) (hp : 0 < a.count) (hnew : ¬ a.repeatsLastAck (sint p.acknum))
include h hp hnew

theorem ackRule_of_stale (hr : inRange c a (sint p.acknum) = false) :
    ackRule c p a = (a.countDup, Response.of .ackStale) := by
  rw [ackRule, if_neg (by simp [h]), if_neg (not_or.mpr ⟨hp.ne', hnew⟩), if_pos hr]

theorem ackRule_of_accepted (hr : inRange c a (sint p.acknum) = true) :
    ackRule c p a = acceptAckRule c (sint p.acknum) a := by
  rw [ackRule, if_neg (by simp [h]), if_neg (not_or.mpr ⟨hp.ne', hnew⟩), if_neg (by simp [hr])]

end new

theorem acceptAckRule_of_later {k : Int} (h : k ≠ a.lo) :
    acceptAckRule c k a = ((a.acceptAck k).setTag (sackIndex c a k) .acked, Response.of .ackSack) := if_pos h

theorem acceptAckRule_of_oldest {k : Int} (h : k = a.lo) : acceptAckRule c k a =
    (slide c (a.acceptAck k), Response.ofOut .ackSlide (slideTimers c (slide c (a.acceptAck k)))) :=
  if_neg fun hne => hne h

theorem timeoutRule_of_ignored (h : a.count = 0 ∨ (a.slotAt a.first).tag = .acked) :
    timeoutRule c a = Response.of .toIgnored := by
  by_cases h0 : a.count = 0
  · rw [timeoutRule, if_pos h0]
  · rw [timeoutRule, if_neg h0, if_pos (h.resolve_left h0)]

theorem timeoutRule_of_pending (hp : 0 < a.count) (h : (a.slotAt a.first).tag ≠ .acked) : timeoutRule c a =
    Response.ofOut .toRetx [.tx .a (a.slotAt a.first).pkt, .tstart .a (c.RTT + 1)] := by
  rw [timeoutRule, if_neg hp.ne', if_neg h]

/-- The timer actions of a slide by `n` (41_sender.md R116). -/
theorem slideTimers_slideBy (n : Nat) : slideTimers c (a.slideBy c n) =
    .tstop .a :: (if n < a.count then [.tstart .a (c.RTT + 1)] else []) := by
  simp [slideTimers, Sender.slideBy]

end branches

/-! ### The obligations on single events -/

/-- Settles O19: a ready sender runs the rule of A.SEND, whose outputs the host applies. -/
theorem sendIsAcceptedIffThereIsRoom : Obligations.SendIsAcceptedIffThereIsRoom := by
  refine fun s pay h => ⟨fun hroom => ?_, fun hfull => ?_⟩
  · rw [exec_aSend_of_ready h, sendRule_of_room hroom]
    by_cases h0 : s.a.count = 0 <;> simp [acceptSend, State.publish, Response.ofOut, Sender.setSlot, h0]
  · rw [exec_aSend_of_ready h, sendRule_of_full hfull, publish_of_out_nil rfl]
    rfl

/-- Settles O20: the three discards are branches of the rule of A.RX without outputs. -/
theorem ackDiscardsCountOnly : Obligations.AckDiscardsCountOnly := by
  refine fun s p h => ⟨fun hc => ?_, fun hc hd => ?_, fun hc hp hnew hr => ?_⟩
  · rw [exec_aRx_of_ready h, ackRule_of_corrupted hc, publish_of_out_nil rfl]
    rfl
  · rw [exec_aRx_of_ready h, ackRule_of_duplicate hc hd, publish_of_out_nil rfl]
    rfl
  · rw [exec_aRx_of_ready h, ackRule_of_stale hc hp hnew hr, publish_of_out_nil rfl]
    rfl

/-- Settles O21: a new number in range that is not the oldest's takes the selective branch, which puts out nothing. -/
theorem ackOfLaterSlotIsSelective : Obligations.AckOfLaterSlotIsSelective := by
  intro s p h hc hp hnew hr hk
  rw [exec_aRx_of_ready h, ackRule_of_accepted hc hp hnew hr, acceptAckRule_of_later hk, publish_of_out_nil rfl]
  rfl

/-- Settles O22: the slide moves the window past the slots that its scan counted, which it clears. -/
theorem ackOfOldestSlotSlides : Obligations.AckOfOldestSlotSlides := by
  intro s p h hc hp hnew hr hk
  obtain ⟨hW, hlen, -, -⟩ := h.addressable
  obtain ⟨n, h1, hn, hacked, hstop, hslide⟩ := exists_slideBy (c := s.cfg) hp (sint p.acknum)
  have hexec := exec_aRx_of_ready h p
  rw [ackRule_of_accepted hc hp hnew hr, acceptAckRule_of_oldest hk, hslide, slideTimers_slideBy] at hexec
  refine ⟨n, _, hexec, h1, hn, hacked, hstop, ?_, clearOldest_buf_length .., ?_, ?_, ?_⟩
  · by_cases hlt : n < s.a.count <;>
      simp [State.publish, Response.ofOut, Sender.slideBy, Sender.acceptAck, hlt]
  · exact fun j hj => clearOldest_slotAt_tag s.cfg n j (s.a.acceptAck (sint p.acknum)) hW hlen hj
  · exact fun i => clearOldest_slotAt_pkt s.cfg n i (s.a.acceptAck (sint p.acknum))
  · exact fun i hi => clearOldest_slotAt_of_ne s.cfg n i (s.a.acceptAck (sint p.acknum)) hi

/-- Settles O23: the expiry is presented, and the rule of A.TIMEOUT runs on the disarmed timer. -/
theorem timeoutRetransmitsTheOldest : Obligations.TimeoutRetransmitsTheOldest := by
  refine fun s h he => ⟨fun hp ht => ?_, fun hi => ?_⟩
  · rw [exec_aTimeout_of_ready h he, timeoutRule_of_pending hp ht]
    simp [State.publish, State.disarm, Response.ofOut]
  · rw [exec_aTimeout_of_ready h he, timeoutRule_of_ignored hi, publish_of_out_nil rfl]
    rfl

/-- Settles O26: the first line of the test, and its two cases. -/
theorem rangeTestHasTwoCases : Obligations.RangeTestHasTwoCases := by
  refine fun c a k => ⟨inRange_of_outside a, fun h0 hS hle => ?_, fun h0 hS hlt => ?_⟩
  · rw [inRange_of_inside a ⟨h0, hS⟩, if_pos hle, decide_eq_true_iff]
  · rw [inRange_of_inside a ⟨h0, hS⟩, if_neg (not_le.mpr hlt), decide_eq_true_iff]

theorem ackRule_congr {c : Config} {p q : Packet} (hk : p.acknum = q.acknum)
    (hc : isCorrupted c p = isCorrupted c q) (a : Sender) : ackRule c p a = ackRule c q a := by
  rw [ackRule, ackRule, hk, hc]

/-- Settles O31: admission does not read the packet, and the rule reads its verdict and acknum only. -/
theorem ackSeqnumAndPayloadAreIgnored : Obligations.AckSeqnumAndPayloadAreIgnored := by
  intro s p q hk hc
  rw [exec, exec, execARx, execARx, ackRule_congr hk hc]

/-! ### The obligations on the range test and the slide -/

/-- Settles O27: R125. -/
theorem rangeTestIsWindowMembership : Obligations.RangeTestIsWindowMembership :=
  fun _ _ k hv hw hq hp => inRange_iff hv hw hq hp k

/-- Settles O28: the slot is at the number's distance from the oldest's, and no other slot is. -/
theorem sackIndexFindsTheSlot : Obligations.SackIndexFindsTheSlot := by
  intro c a k hv hw hq hp hr hk
  obtain ⟨j, h1, hj, hix, hseq⟩ := exists_later_position hv hw hq hp hr hk
  refine ⟨j, h1, hj, hix, hseq, fun i hi hki => ?_⟩
  have hoff := offset_slotPos hv hw hq hj
  rw [hseq, ← hki, offset_slotPos hv hw hq hi] at hoff
  omega

/-- Settles O29: the number lies `S - d` positions ahead of the oldest's, and that is not fewer than `A.count`. -/
theorem slidPastNumberNeverSlides : Obligations.SlidPastNumberNeverSlides := by
  intro s p d h hs hc h1 hd hk
  obtain ⟨hv, hw, hq⟩ := hs h.init
  obtain ⟨-, hdup, hstale⟩ := ackDiscardsCountOnly s p h
  by_cases hrep : s.a.count = 0 ∨ s.a.repeatsLastAck (sint p.acknum)
  · exact ⟨.ackDup, .inl rfl, hdup hc hrep⟩
  · obtain ⟨hp, hnew⟩ := not_or.mp hrep
    have hpos : 0 < s.a.count := Nat.pos_of_ne_zero hp
    have hoff : (sint p.acknum - s.a.lo) % (s.cfg.S : Int) = s.cfg.S - d := by
      rw [hk, base_eq_lo hw hq hpos, Int.emod_sub_emod, sub_sub_cancel_left, neg_emod_of_le h1 (by omega)]
    have hout : inRange s.cfg s.a (sint p.acknum) = false := by
      rw [← Bool.not_eq_true, inRange_iff hv hw hq hpos, hoff]
      omega
    exact ⟨.ackStale, .inr rfl, hstale hc hpos hnew hout⟩

/-- Settles O30: the scan counts exactly the ACKED slots after the oldest. -/
theorem slideConsolidatesAckedSlots : Obligations.SlideConsolidatesAckedSlots := by
  intro s p r h hs hc hr hnew hk hacked hstop
  obtain ⟨hv, hw, hq⟩ := hs h.init
  have hpos : 0 < s.a.count := by omega
  obtain ⟨n, t, hexec, h1, hn, hacked', hstop', ht, -⟩ :=
    ackOfOldestSlotSlides s p h hc hpos hnew (hk ▸ inRange_lo hv hw hq hpos) hk
  have hle : n ≤ r + 1 := by
    by_contra hlt
    exact hstop (by omega) (hacked' (r + 1) (by omega) (by omega))
  have hge : r + 1 ≤ n := by
    by_contra hlt
    exact hstop' (by omega) (hacked n h1 (by omega))
  obtain rfl : n = r + 1 := by omega
  refine ⟨t, hexec, ?_, ?_, ?_, ?_⟩ <;> rw [ht]

end Sys2Proof.Machine
end

section
/-! PROOFS, family 41_sender: the outputs of every event and the packets that A hands to the channel. -/

namespace Sys2Proof.Machine

/-! ### The outputs of each event (41_sender.md R110) -/

/-- The output is one that the event can put out: TX of EP_A by A.SEND and A.TIMEOUT, TSTART of EP_A by any sender
event, TSTOP of EP_A by A.RX, and DELIVER and TX of EP_B by B.RX. -/
def Action.PutOutBy (i : Instr) : Action → Prop
  | .tx .a _ => (∃ pay, i = .aSend pay) ∨ i = .aTimeout
  | .tstart .a _ => (∃ pay, i = .aSend pay) ∨ (∃ p, i = .aRx p) ∨ i = .aTimeout
  | .tstop .a => ∃ p, i = .aRx p
  | .deliver .b _ | .tx .b _ => ∃ p, i = .bRx p
  | .deliver .a _ | .tstart .b _ | .tstop .b => False

section outputs
variable {c : Config} {a : Sender} {i : Instr} {s t : State} {r : Response}

theorem sendRule_putOut (pay : List Byte) : ∀ x ∈ (sendRule c pay a).2.out, x.PutOutBy (.aSend pay) := by
  rcases sendRule_cases c pay a with ⟨-, h⟩ | ⟨-, h⟩ <;> rw [h]
  · simp only [acceptSend]
    split <;> simp [Action.PutOutBy]
  · simp

theorem ackRule_putOut (p : Packet) : ∀ x ∈ (ackRule c p a).2.out, x.PutOutBy (.aRx p) := by
  rcases ackRule_cases c p a with ⟨-, h⟩ | ⟨-, -, h⟩ | ⟨-, -, -, -, h⟩ | ⟨-, -, -, -, -, h⟩ | ⟨-, -, -, -, -, h⟩ <;>
    rw [h]
  case inr.inr.inr.inr =>
    simp only [ofOut_out, slideTimers]
    split <;> simp [Action.PutOutBy]
  all_goals simp

theorem timeoutRule_putOut : ∀ x ∈ (timeoutRule c a).out, x.PutOutBy .aTimeout := by
  rcases timeoutRule_cases c a with ⟨-, h⟩ | ⟨-, -, h⟩ <;> simp [h, Action.PutOutBy]

theorem acceptData_putOut (p : Packet) (b : Receiver) : ∀ x ∈ (acceptData c p b).2.out, x.PutOutBy (.bRx p) := by
  rcases acceptData_cases c p b with ⟨-, h⟩ | ⟨-, h⟩ <;> simp [h, Action.PutOutBy]

theorem exec_putOut (h : exec i s = .next t) : ∃ r, t.resp = some r ∧ ∀ x ∈ r.out, x.PutOutBy i := by
  cases exec_cases h with
  | aSend _ pay hi => exact ⟨_, rfl, hi ▸ sendRule_putOut pay⟩
  | aRx _ p hi => exact ⟨_, rfl, hi ▸ ackRule_putOut p⟩
  | aTimeout _ hi => exact ⟨_, rfl, hi ▸ timeoutRule_putOut⟩
  | bRx _ p hi => exact ⟨_, rfl, hi ▸ acceptData_putOut p s.b⟩
  | _ => exact ⟨_, rfl, by simp⟩

/-! ### The packets that A hands to the channel (41_sender.md R131, R119) -/

theorem mem_sentBy {e : Endpoint} {p : Packet} : ∀ {out : List Action}, .tx e p ∈ out → p ∈ sentBy e out
  | x :: xs, h => by
    rcases List.mem_cons.mp h with rfl | h
    · simp [sentBy]
    · have ih := mem_sentBy h
      cases x with
      | tx f q =>
        rw [sentBy]
        split
        · exact List.mem_cons_of_mem _ ih
        · exact ih
      | _ => exact ih

/-- The ways in which an event can transmit from A: not at all and then without SEND_OK, the new packet of A.SEND, or the
oldest packet of A.TIMEOUT. -/
inductive Transmits (i : Instr) (s : State) (r : Response) : Prop
  | none (hres : r.res ≠ .sendOk) (hsent : sentBy .a r.out = [])
  | new (pay : List Byte) (hi : i = .aSend pay)
      (hsent : sentBy .a r.out = [mkpkt s.cfg (word s.a.nextseq) s.cfg.NOTINUSE pay])
  | oldest (hi : i = .aTimeout) (hres : r.res ≠ .sendOk) (hsent : sentBy .a r.out = [(s.a.slotAt s.a.first).pkt])

theorem ne_sendOk_of_fits (h : r.Fits c i) (hi : ∀ pay, i ≠ .aSend pay) : r.res ≠ .sendOk := by
  intro e
  have hres := h.res
  rw [e] at hres
  obtain ⟨pay, hpay⟩ := hres
  exact hi pay hpay

theorem sendRule_transmits (pay : List Byte) : Transmits (.aSend pay) s (sendRule s.cfg pay s.a).2 := by
  rcases sendRule_cases s.cfg pay s.a with ⟨-, h⟩ | ⟨-, h⟩ <;> rw [h]
  · refine .new pay rfl ?_
    simp only [acceptSend]
    split <;> simp
  · exact .none (by simp) rfl

theorem timeoutRule_transmits : Transmits .aTimeout s (timeoutRule s.cfg s.a) := by
  rcases timeoutRule_cases s.cfg s.a with ⟨-, h⟩ | ⟨-, -, h⟩ <;> rw [h]
  · exact .none (by simp) rfl
  · exact .oldest rfl (by simp) rfl

theorem exec_transmits (h : exec i s = .next t) : ∃ r, t.resp = some r ∧ Transmits i s r := by
  cases exec_cases h with
  | aSend _ pay hi => exact ⟨_, rfl, hi ▸ sendRule_transmits pay⟩
  | aTimeout _ hi => exact ⟨_, rfl, hi ▸ timeoutRule_transmits⟩
  | aRx _ p =>
    exact ⟨_, rfl, .none (ne_sendOk_of_fits (c := s.cfg) (ackRule_fits (p := p) s.a) (by simp)) (ackRule_sent p)⟩
  | bRx _ p =>
    exact ⟨_, rfl, .none (ne_sendOk_of_fits (c := s.cfg) (acceptData_fits (p := p) s.b) (by simp))
      (sentBy_of_outputsOf (by decide) acceptData_outputsOf)⟩
  | _ => exact ⟨_, rfl, .none (by simp) rfl⟩

end outputs

/-- Settles O41: by the kind of the output and its endpoint. -/
theorem outputsBelongToTheirUnit : Obligations.OutputsBelongToTheirUnit := by
  intro i s t r h hr x hx
  obtain ⟨r', hr', hout⟩ := exec_putOut h
  obtain rfl : r = r' := Option.some.inj (hr.symm.trans hr')
  have hput := hout x hx
  match x, hput with
  | .tx .a p, hi => exact .inl ⟨p, rfl, hi⟩
  | .tstart .a d, hi => exact .inr (.inl ⟨d, rfl, hi⟩)
  | .tstop .a, hi => exact .inr (.inr (.inl ⟨rfl, hi⟩))
  | .deliver .b d, ⟨p, hi⟩ => exact .inr (.inr (.inr (.inl ⟨d, p, rfl, hi⟩)))
  | .tx .b q, ⟨p, hi⟩ => exact .inr (.inr (.inr (.inr ⟨q, p, rfl, hi⟩)))

/-- Settles O32: a transmitted packet is in the list of packets handed to the channel, which holds at most one. -/
theorem transmissionsComeFromSendAndTimeout : Obligations.TransmissionsComeFromSendAndTimeout := by
  intro i s t r h hr
  obtain ⟨r', hr', htx⟩ := exec_transmits h
  obtain rfl : r = r' := Option.some.inj (hr.symm.trans hr')
  cases htx with
  | none hres hsent => exact ⟨fun p hp => by simpa [hsent] using mem_sentBy hp, fun e => absurd e hres⟩
  | new pay hi hsent =>
    refine ⟨fun p hp => .inl ⟨pay, hi, ?_⟩, fun _ => ⟨_, hsent⟩⟩
    obtain rfl : p = mkpkt s.cfg (word s.a.nextseq) s.cfg.NOTINUSE pay := by simpa [hsent] using mem_sentBy hp
    exact ⟨rfl, hsent⟩
  | oldest hi hres hsent =>
    refine ⟨fun p hp => .inr ⟨hi, ?_⟩, fun e => absurd e hres⟩
    obtain rfl : p = (s.a.slotAt s.a.first).pkt := by simpa [hsent] using mem_sentBy hp
    exact ⟨rfl, hsent⟩

end Sys2Proof.Machine
end

section
/-! PROOFS, family 41_sender: lastACK and the timer, step by step. -/

namespace Sys2Proof.Machine

/-! ### lastACK (41_sender.md R126) -/

section lastAck
variable {c : Config} {a : Sender}

/-- A sent packet takes the number `A.count` positions ahead of the base, so it moves neither the base nor lastACK. -/
theorem lastAckInv_sendRule (hw : WindowInv c a) (hl : LastAckInv c a) (pay : List Byte) :
    LastAckInv c (sendRule c pay a).1 := by
  rcases sendRule_cases c pay a with ⟨hroom, h⟩ | ⟨-, h⟩ <;> rw [h]
  · intro hv
    have hoff : (acceptSend c pay a).1.ackOffset c = a.ackOffset c := by
      rw [Sender.ackOffset, base_acceptSend, Sender.ackOffset]
      rfl
    rw [hoff]
    refine (hl hv).imp_left fun ⟨j, hj, hoffj, htag⟩ => ⟨j, Nat.lt_succ_of_lt hj, hoffj, ?_⟩
    rwa [acceptSend_slotPos hw hroom pay (by omega), if_neg (by omega)]
  · exact hl

/-- An accepted acknowledgment leaves its number to an ACKED slot, or slides the window by `n` and leaves it `S - n`
positions ahead of the new base. -/
theorem lastAckInv_ackEffect (hv : ValidConfig c) (hw : WindowInv c a) (hq : SeqInv c a) (hl : LastAckInv c a) {k : Int}
    {b : Sender} (h : AckEffect c k a b) : LastAckInv c b := by
  have hc := hw.count_le
  have hS := hv.seq_ratio
  cases h with
  | discard x y => exact hl
  | sack j h1 hj hk =>
    have hspace := inSeqSpace_slotPos hv hq hj
    have hoff := offset_slotPos hv hw hq hj
    rw [← base_eq_lo hw hq (by omega), hk] at hoff
    refine fun _ => .inl ⟨j, hj, ?_, ?_⟩
    · change ((k.toNat : Int) - a.base c) % c.S = j
      rwa [Int.toNat_of_nonneg (hk ▸ hspace.1)]
    · rw [show a.indexOf c j = (a.acceptAck k).indexOf c j from rfl,
        setTag_slotPos (windowInv_acceptAck hw k) (by omega) _ (by omega), if_pos rfl]
  | slide n h1 hn hk hacked hstop =>
    have hlo := inSeqSpace_lo hv hw hq (by omega)
    have hoff : ((a.acceptAck k).slideBy c n).ackOffset c = c.S - n := by
      change ((k.toNat : Int) - ((a.acceptAck k).slideBy c n).base c) % c.S = _
      rw [base_slideBy (a := a.acceptAck k) hn, show (a.acceptAck k).base c = a.base c from rfl, base_eq_lo hw hq (by omega),
        hk, Int.toNat_of_nonneg hlo.1, Int.sub_emod_emod, sub_add_cancel_left, neg_emod_of_le h1 (by omega)]
    exact fun _ => .inr (by rw [hoff]; omega)

theorem exec_lastAckInv {i : Instr} {s t : State} (hnone : s.cfg.LASTACK_RESET = none) (hs : SenderInv s)
    (hl : s.a.init = true → LastAckInv s.cfg s.a) (h : exec i s = .next t) :
    t.a.init = true → LastAckInv t.cfg t.a := by
  cases exec_cases h with
  | aInit => exact fun _ hheld => by simp [initSender, hnone] at hheld
  | aSend _ pay _ hn =>
    obtain ⟨-, hw, -⟩ := hs hn
    exact fun _ => lastAckInv_sendRule hw (hl hn) pay
  | aRx _ p _ hn =>
    obtain ⟨hv, hw, hq⟩ := hs hn
    exact fun _ => lastAckInv_ackEffect hv hw hq (hl hn) (ackRule_effect hv hw hq p)
  | _ => exact hl

/-- What R126 rests on: the premise on the configuration, the sender's invariant, and where lastACK lies. -/
structure LastAckSafe (s : State) : Prop where
  resetNone : s.cfg.LASTACK_RESET = none
  sender : SenderInv s
  lastAck : s.a.init = true → LastAckInv s.cfg s.a

theorem step_lastAckSafe {s t : State} (hs : LastAckSafe s) (h : step s = .next t) : LastAckSafe t := by
  refine step_keeps (P := LastAckSafe) (fun _ _ hs => ⟨hs.resetNone, hs.sender, hs.lastAck⟩) (fun i s t hi hs h => ?_)
    (fun ev s t hs h => ?_) hs h
  · exact ⟨exec_cfg h ▸ hs.resetNone, exec_senderInv hi hs.sender h,
      exec_lastAckInv hs.resetNone hs.sender hs.lastAck h⟩
  · obtain ⟨f, r, -, rfl⟩ := execIllegal_eq h
    exact ⟨hs.resetNone, hs.sender, hs.lastAck⟩

end lastAck

/-- Settles O51: A.INIT holds no lastACK, A.SEND moves neither it nor the base, and A.RX leaves it ACKED or behind. -/
theorem lastAckInvKept : Obligations.LastAckInvKept :=
  fun _ _ hnone hs hl h => (step_lastAckSafe ⟨hnone, hs, hl⟩ h).lastAck

/-! ### The timer (41_sender.md R128) -/

section timer
variable {c : Config} {a : Sender} {tm : Timer}

theorem sendRule_timer (pay : List Byte) (h : tm.armed = true ↔ 0 < a.count) :
    (applyTimers tm (sendRule c pay a).2.out).armed = true ↔ 0 < (sendRule c pay a).1.count := by
  rcases sendRule_cases c pay a with ⟨-, hs⟩ | ⟨-, hs⟩ <;> rw [hs]
  · by_cases h0 : a.count = 0 <;> simp [acceptSend, h0, h, Nat.pos_of_ne_zero]
  · exact h

theorem ackRule_timer (p : Packet) (h : tm.armed = true ↔ 0 < a.count) :
    (applyTimers tm (ackRule c p a).2.out).armed = true ↔ 0 < (ackRule c p a).1.count := by
  rcases ackRule_cases c p a with ⟨-, ha⟩ | ⟨-, -, ha⟩ | ⟨-, -, -, -, ha⟩ | ⟨-, -, -, -, -, ha⟩ | ⟨-, -, -, -, -, ha⟩ <;>
    rw [ha]
  case inr.inr.inr.inr =>
    by_cases hp : 0 < (slide c (a.acceptAck (sint p.acknum))).count <;> simp [slideTimers, hp]
  all_goals exact h

/-- With packets in flight an expiry finds the oldest slot INFLIGHT (41_sender.md R124), so it sends that slot's packet
again and starts the timer. -/
theorem timeoutRule_of_inflight (hw : WindowInv c a) (hp : 0 < a.count) : timeoutRule c a =
    Response.ofOut .toRetx [.tx .a (a.slotAt a.first).pkt, .tstart .a (c.RTT + 1)] := by
  have hold := hw.oldest hp
  rw [slotPos_zero hw.addressable.2.2.1] at hold
  exact timeoutRule_of_pending hp (by simp [hold])

theorem timeoutRule_timer (hw : WindowInv c a) (h : tm.armed = false) :
    (applyTimers tm (timeoutRule c a).out).armed = true ↔ 0 < a.count := by
  rcases Nat.eq_zero_or_pos a.count with h0 | hp
  · simp [timeoutRule_of_ignored (.inl h0), h, h0]
  · simp [timeoutRule_of_inflight hw hp, hp]

theorem exec_timerInv {i : Instr} {s t : State} (hs : SenderInv s) (htm : TimerInv s) (h : exec i s = .next t) :
    TimerInv t := by
  have hinit (hf : s.fault.reg = 0#8) (hn : s.a.init = true) : s.timer.armed = true ↔ 0 < s.a.count := by
    simpa [hn] using htm hf
  cases exec_cases h with
  | quietExpiry hf => exact fun hf' => absurd hf' hf
  | raised | raisedExpiry => exact fun hf => absurd hf (mask_ne_zero _)
  | aInit hf _ hn => exact fun _ => by simpa [hn, initSender] using htm hf
  | aSend hf pay _ hn => exact fun _ => by simpa [hn] using sendRule_timer pay (hinit hf hn)
  | aRx hf p _ hn => exact fun _ => by simpa [hn] using ackRule_timer p (hinit hf hn)
  | aTimeout hf _ _ hn =>
    obtain ⟨-, hw, -⟩ := hs hn
    exact fun _ => by simpa [hn] using timeoutRule_timer (tm := s.disarm.timer) hw rfl
  | bRx => simpa [TimerInv, applyTimers_of_outputsOf_b _ acceptData_outputsOf] using htm
  | _ => exact htm

theorem execIllegal_timerInv {ev : EventWord} {s t : State} (h : execIllegal ev s = .next t) : TimerInv t := by
  obtain ⟨f, r, hf, rfl⟩ := execIllegal_eq h
  exact fun hf' => absurd hf' hf

end timer

/-- Settles O49: a rule's timer actions arm the timer exactly when the rule leaves packets in flight. -/
theorem timerInvKept : Obligations.TimerInvKept := by
  intro s t hs htm h
  refine (step_keeps (P := fun s => SenderInv s ∧ TimerInv s) (fun _ _ hs => hs) (fun i s t hi hs h => ?_)
    (fun ev s t hs h => ?_) ⟨hs, htm⟩ h).2
  · exact ⟨exec_senderInv hi hs.1 h, exec_timerInv hs.1 hs.2 h⟩
  · exact ⟨execIllegal_senderInv hs.1 h, execIllegal_timerInv h⟩

end Sys2Proof.Machine
end

section
/-! PROOFS, family 41_sender: the invariants of reachable states, and what they say of lastACK and of infinite runs. -/

namespace Sys2Proof.Machine

/-! ### The receiver's and the fault record's parts (42_receiver.md R147, 60_exceptions.md R163, R164) -/

section otherParts
variable {i : Instr} {s t : State}

/-- Before B.INIT no event delivers a payload. -/
theorem exec_delivered_of_notInit (hn : s.b.init = false) (h : exec i s = .next t) : t.delivered = s.delivered := by
  cases exec_cases h with
  | bRx _ _ _ hn' => simp [hn] at hn'
  | aSend => simp [deliveredBy_of_outputsOf_a sendRule_outputsOf]
  | aRx => simp [deliveredBy_of_outputsOf_a ackRule_outputsOf]
  | aTimeout => simp [deliveredBy_of_outputsOf_a timeoutRule_outputsOf]
  | _ => simp

/-- A step of the record keeps its size, and the deliveries equal in number to its 1 bits. -/
theorem recordStep_count (hr : RecordStep s t) (hc : s.delivered.length = s.b.dlv.count true) :
    t.b.dlv.length = s.b.dlv.length ∧ t.delivered.length = t.b.dlv.count true := by
  rcases hr with ⟨hd, hb⟩ | ⟨q, d, hlt, hold, hd, hb⟩
  · rw [hd, hb]
    exact ⟨rfl, hc⟩
  · have hbit : s.b.dlv[q] = false := by simpa [Receiver.hasDelivered, List.getD_eq_getElem?_getD, hlt] using hold
    rw [hd, hb]
    exact ⟨List.length_set, by simp [List.count_set hlt, hbit, hc]⟩

theorem exec_receiverInv (hs : ReceiverInv s) (h : exec i s = .next t) : ReceiverInv t := by
  obtain ⟨hs1, hs0⟩ := hs
  have hcfg := exec_cfg h
  cases hn : s.b.init with
  | true =>
    obtain ⟨hv, hlen, hcount⟩ := hs1 hn
    obtain ⟨hlen', hcount'⟩ := recordStep_count (exec_recordStep hn h) hcount
    have hn' : t.b.init = true := (exec_b_init h).elim (fun e => e.trans hn) And.right
    exact ⟨fun _ => ⟨hcfg ▸ hv, by rw [hlen', hlen, hcfg], hcount'⟩, fun e => by simp [hn'] at e⟩
  | false =>
    have hd : t.delivered = [] := (exec_delivered_of_notInit hn h).trans (hs0 hn)
    refine ⟨fun hn' => ?_, fun _ => hd⟩
    cases exec_cases h with
    | bInit _ _ _ hc =>
      have hzeros : (initReceiver s.cfg).dlv.count true = 0 := by simp [initReceiver, List.count_replicate]
      exact ⟨(firstViolatedClause_eq_zero _).mp hc, List.length_replicate, by rw [hd]; exact hzeros.symm⟩
    | bRx _ _ _ hn'' => simp [hn] at hn''
    | _ => exact absurd hn' (by simp [hn])

theorem exec_faultInv (hs : FaultInv s) (h : exec i s = .next t) : FaultInv t := by
  cases exec_cases h with
  | raised _ _ cause v => exact .inr ⟨cause, _, rfl, rfl⟩
  | raisedExpiry => exact .inr ⟨.notInit, _, rfl, rfl⟩
  | _ => exact hs

theorem execIllegal_faultInv {ev : EventWord} (hs : FaultInv s) (h : execIllegal ev s = .next t) : FaultInv t := by
  rcases execIllegal_cases h with ⟨-, rfl⟩ | ⟨-, rfl⟩
  · exact hs
  · exact .inr ⟨.illegalEvent, _, rfl, rfl⟩

end otherParts

/-! ### Reachable states -/

theorem step_inv {s t : State} (hs : Inv s) (h : step s = .next t) : Inv t := by
  refine step_keeps (P := Inv) (fun _ _ hs => ⟨hs.sender, hs.timer, hs.receiver, hs.fault, hs.channel⟩)
    (fun i s t hi hs h => ?_) (fun ev s t hs h => ?_) hs h
  · exact ⟨exec_senderInv hi hs.sender h, exec_timerInv hs.sender hs.timer h, exec_receiverInv hs.receiver h,
      exec_faultInv hs.fault h, exec_channelInv hs.sender hs.channel hi h⟩
  · obtain ⟨f, r, -, rfl⟩ := execIllegal_eq h
    exact ⟨hs.sender, execIllegal_timerInv h, hs.receiver, execIllegal_faultInv hs.fault h, hs.channel⟩

theorem reachable_inv {c : Config} {s : State} (h : Reachable c s) : Inv s := by
  induction h with
  | powerOn => exact powerOn_inv c
  | present ts _ ih => exact ⟨ih.sender, ih.timer, ih.receiver, ih.fault, ih.channel⟩
  | step _ h ih => exact step_inv ih h

theorem step_cfg {s t : State} (h : step s = .next t) : t.cfg = s.cfg := by
  rcases step_cases h with ⟨-, rfl⟩ | ⟨tr, rest, i, -, -, h⟩ | ⟨tr, rest, ev, -, -, h⟩
  · rfl
  · exact exec_cfg (s := { s with inbox := rest }) h
  · obtain ⟨f, r, -, rfl⟩ := execIllegal_eq h
    rfl

theorem reachable_cfg {c : Config} {s : State} (h : Reachable c s) : s.cfg = c := by
  induction h with
  | powerOn => rfl
  | present ts _ ih => exact ih
  | step _ h ih => exact (step_cfg h).trans ih

theorem reachable_lastAckSafe {c : Config} {s : State} (hc : c.LASTACK_RESET = none) (h : Reachable c s) :
    LastAckSafe s := by
  induction h with
  | powerOn => exact ⟨hc, (powerOn_inv c).sender, fun hn => by simp at hn⟩
  | present ts _ ih => exact ⟨ih.resetNone, ih.sender, ih.lastAck⟩
  | step _ h ih => exact step_lastAckSafe ih h

/-- Settles O52: power-on meets the invariants, and each event keeps each of them. -/
theorem reachableStatesAreInvariant : Obligations.ReachableStatesAreInvariant := fun _ _ => reachable_inv

/-- An occupied slot that holds the number lastACK is ACKED: the slot's position is how far lastACK lies ahead of the
base, and that is less than `W`. -/
theorem tag_acked_of_seqnum_eq_lastack {c : Config} {a : Sender} (hv : ValidConfig c) (hw : WindowInv c a)
    (hq : SeqInv c a) (hl : LastAckInv c a) (hheld : a.lastack_v = true) {j : Nat} (hj : j < a.count)
    (hk : sint (a.slotPos c j).pkt.seqnum = (a.lastack : Int)) : (a.slotPos c j).tag = .acked := by
  have hc := hw.count_le
  have hoff : a.ackOffset c = j := by
    rw [Sender.ackOffset, ← hk, base_eq_lo hw hq (by omega), offset_slotPos hv hw hq hj]
  rcases hl hheld with ⟨i, -, hi, htag⟩ | hfar
  · obtain rfl : i = j := by omega
    exact htag
  · omega

/-- Settles O53: the slot that holds the number lastACK is ACKED. -/
theorem lastAckIsNeverInFlight : Obligations.LastAckIsNeverInFlight := by
  intro c s hc hr hn hheld j hj htag hk
  have hsafe := reachable_lastAckSafe hc hr
  obtain ⟨hv, hw, hq⟩ := hsafe.sender hn
  have hl := hsafe.lastAck hn
  rw [reachable_cfg hr] at hv hw hq hl
  simp [tag_acked_of_seqnum_eq_lastack hv hw hq hl hheld hj hk] at htag

/-! ### Infinite runs (41_sender.md R130) -/

/-- A step on one well-formed event runs it. -/
theorem step_presented {i : Instr} (s : State) (h : i.wellFormed s.cfg = true) :
    step { s with inbox := [encode i] } = exec i { s with inbox := [] } :=
  step_of_decoded (s := { s with inbox := [encode i] }) rfl (decode_encode h)

theorem reachable_run {c : Config} {st : Nat → State} {ev : Nat → Transaction} (h0 : Reachable c (st 0))
    (hrun : IsRun st ev) : ∀ m, Reachable c (st m)
  | 0 => h0
  | m + 1 => .step (.present [ev m] (reachable_run h0 hrun m)) (hrun m)

/-- An expiry presented in a run while the block has not faulted and packets are in flight sends the oldest packet. -/
theorem run_expiry {c : Config} {st : Nat → State} {ev : Nat → Transaction} (h0 : Reachable c (st 0))
    (hrun : IsRun st ev) {m : Nat} (hf : (st m).fault.reg = 0#8) (hn : (st m).a.init = true)
    (hp : 0 < (st m).a.count) (he : ev m = encode .aTimeout) :
    (st (m + 1)).resp = some (Response.ofOut .toRetx
      [.tx .a ((st m).a.slotAt (st m).a.first).pkt, .tstart .a ((st m).cfg.RTT + 1)]) := by
  have hinv := reachable_inv (reachable_run h0 hrun m)
  obtain ⟨-, hw, -⟩ := hinv.sender hn
  have harmed : (st m).timer.armed = true := (hinv.timer hf).mpr ⟨hn, hp⟩
  have hready : SenderReady { st m with inbox := [] } := ⟨hf, hn, hw.addressable⟩
  have hstep := hrun m
  rw [he, step_presented (st m) rfl, exec_aTimeout_of_ready hready (.inl harmed)] at hstep
  injection hstep with hnext
  rw [← hnext, publish_resp]
  exact congrArg some (timeoutRule_of_inflight hw hp)

/-- Settles O57: the timer stays armed (R128), so weak fairness presents an expiry after every boundary. -/
theorem retransmissionIsUnbounded : Obligations.RetransmissionIsUnbounded := by
  intro c st ev n h0 hrun hfair hf hwin k
  have harmed (m : Nat) (hm : m ≥ max k n) : (st m).timer.armed = true :=
    ((reachable_inv (reachable_run h0 hrun m)).timer (hf m)).mpr (hwin m (by omega))
  obtain ⟨m, hm, he⟩ := hfair (max k n) harmed
  obtain ⟨hn, hp⟩ := hwin m (by omega)
  exact ⟨m, by omega, _, run_expiry h0 hrun (hf m) hn hp he, rfl, List.mem_cons_self⟩

end Sys2Proof.Machine
end

section
/-! PROOFS, family 42_receiver: what B.RX does to a ready receiver, that it alone acknowledges, and how many payloads are
delivered. -/

namespace Sys2Proof.Machine

/-! ### B.RX of a ready receiver (42_receiver.md R141, R142) -/

theorem hasDelivered_of_getElem? {b : Receiver} {q : Nat} {v : Bool} (h : b.dlv[q]? = some v) : b.hasDelivered q = v := by
  rw [Receiver.hasDelivered, List.getD_eq_getElem?_getD, h, Option.getD_some]

section branches
variable {c : Config} {p : Packet} {b : Receiver}

theorem acceptData_of_fresh (h : b.hasDelivered (sint p.seqnum).toNat = false) : acceptData c p b =
    ((b.record (sint p.seqnum).toNat).toggle,
      Response.ofOut .rxNew [.deliver .b p.payload, .tx .b (ackFor c b p.seqnum)]) := if_pos h

theorem acceptData_of_duplicate (h : b.hasDelivered (sint p.seqnum).toNat = true) : acceptData c p b =
    (b.toggle, Response.ofOut .rxDup [.tx .b (ackFor c b p.seqnum)]) := if_neg (by simp [h])

end branches

section ready
variable {s : State} (h : ReceiverReady s) {p : Packet}
include h

theorem exec_bRx_of_corrupted (hc : isCorrupted s.cfg p = true) :
    exec (.bRx p) s = .next (s.publish (Response.of .rxCorrupt)) := by
  rw [exec, execBRx, admitReceiver_of_ready h.noFault h.init h.addressable, if_pos hc, finish]

theorem exec_bRx_of_outside (hc : isCorrupted s.cfg p = false) (hq : ¬ inSeqSpace s.cfg (sint p.seqnum)) :
    exec (.bRx p) s = .next (State.publish
      { s with fault := ⟨FaultCause.rxSeqRange.mask, some ⟨Op.bRx.word, p.seqnum⟩⟩ } (Response.of .faulted)) := by
  rw [exec, execBRx, admitReceiver_of_ready h.noFault h.init h.addressable, if_neg (by simp [hc]), if_neg hq,
    raiseFault, record_of_none h.noFault, finish]

theorem exec_bRx_of_accepted (hc : isCorrupted s.cfg p = false) (hq : inSeqSpace s.cfg (sint p.seqnum)) :
    exec (.bRx p) s =
      .next (State.publish { s with b := (acceptData s.cfg p s.b).1 } (acceptData s.cfg p s.b).2) := by
  rw [exec, execBRx, admitReceiver_of_ready h.noFault h.init h.addressable, if_neg (by simp [hc]), if_pos hq,
    finishReceiver, finish]

end ready

/-- Settles O33: the four branches of B.RX, each with its outputs applied by the host. -/
theorem receiveDeliversAndAcknowledges : Obligations.ReceiveDeliversAndAcknowledges := by
  refine fun s p h => ⟨fun hc => ?_, fun hc hout => ?_, fun hc h0 hS hbit => ?_, fun hc h0 hS hbit => ?_⟩
  · rw [exec_bRx_of_corrupted h hc, publish_of_out_nil rfl]
    rfl
  · rw [exec_bRx_of_outside h hc (by omega), publish_of_out_nil rfl]
    rfl
  · rw [exec_bRx_of_accepted h hc ⟨h0, hS⟩, acceptData_of_fresh (hasDelivered_of_getElem? hbit)]
    simp [State.publish, Response.ofOut, ackFor, fill, Receiver.record, Receiver.toggle]
  · rw [exec_bRx_of_accepted h hc ⟨h0, hS⟩, acceptData_of_duplicate (hasDelivered_of_getElem? hbit)]
    simp [State.publish, Response.ofOut, ackFor, fill, Receiver.toggle]

theorem acceptData_congr {c : Config} {p q : Packet} (hs : p.seqnum = q.seqnum) (hp : p.payload = q.payload)
    (b : Receiver) : acceptData c p b = acceptData c q b := by
  rw [acceptData, acceptData, hs, hp]

/-- Settles O34: admission does not read the packet, the verdict and the seqnum select the branch, and each branch reads
seqnum and payload only. -/
theorem dataAcknumIsIgnored : Obligations.DataAcknumIsIgnored := by
  intro s p q hs hp hc
  rw [exec, exec, execBRx, execBRx, acceptData_congr hs hp, hc, hs]

/-! ### Acknowledgments (42_receiver.md R147) -/

section acknowledgments
variable {i : Instr} {s t : State}

/-- No event but B.RX hands the channel a packet from B. -/
theorem exec_chanBA_of_ne_bRx (hi : ∀ p, i ≠ .bRx p) (h : exec i s = .next t) : t.chanBA = s.chanBA := by
  have hnone {out : List Action} (ho : OutputsOf .a out) : sentBy .b out = [] := sentBy_of_outputsOf (by decide) ho
  cases exec_cases h with
  | bRx _ p hi' => exact absurd hi' (hi p)
  | aSend => simp [hnone sendRule_outputsOf]
  | aRx => simp [hnone ackRule_outputsOf]
  | aTimeout => simp [hnone timeoutRule_outputsOf]
  | _ => simp

/-- The rule of an accepted packet sends the packet's acknowledgment, whether the packet is fresh or a duplicate. -/
theorem acceptData_acknowledges (c : Config) (p : Packet) (b : Receiver) :
    ((acceptData c p b).2.res = .rxNew ∨ (acceptData c p b).2.res = .rxDup) ∧
      sentBy .b (acceptData c p b).2.out = [ackFor c b p.seqnum] := by
  rcases acceptData_cases c p b with ⟨-, h⟩ | ⟨-, h⟩ <;> simp [h]

end acknowledgments

/-- Settles O36: of the ends of B.RX, only the rule of an accepted packet hands the channel one, and the others are a
corrupted packet or a fault. -/
theorem oneAcknowledgmentPerValidPacket : Obligations.OneAcknowledgmentPerValidPacket := by
  intro i s t h
  by_cases hi : ∃ p, i = .bRx p
  · obtain ⟨p, rfl⟩ := hi
    rcases execBRx_cases h with ⟨hf, rfl⟩ | ⟨-, -, rfl⟩ | ⟨hf, -, -, ⟨hc, rfl⟩ | ⟨-, -, -, rfl⟩ | ⟨hc, -, rfl⟩⟩
    · exact .inr ⟨by simp, fun _ _ => .inr hf⟩
    · exact .inr ⟨by simp, fun _ _ => .inr (mask_ne_zero .notInit)⟩
    · exact .inr ⟨by simp, fun _ hp => .inl (Instr.bRx.inj hp ▸ hc)⟩
    · exact .inr ⟨by simp, fun _ _ => .inr (mask_ne_zero .rxSeqRange)⟩
    · obtain ⟨hres, hsent⟩ := acceptData_acknowledges s.cfg p s.b
      exact .inl ⟨p, ackFor s.cfg s.b p.seqnum, _, rfl, hc, hf, rfl, hres, rfl, by simp [hsent]⟩
  · rw [not_exists] at hi
    exact .inr ⟨exec_chanBA_of_ne_bRx hi h, fun p hp => absurd hp (hi p)⟩

/-! ### Deliveries (42_receiver.md R144) -/

theorem execIllegal_receiverInv {ev : EventWord} {s t : State} (hs : ReceiverInv s) (h : execIllegal ev s = .next t) :
    ReceiverInv t := by
  obtain ⟨f, r, -, rfl⟩ := execIllegal_eq h
  exact hs

/-- Settles O37: an event adds one delivery and one 1 bit, or leaves both; B.INIT writes a record of zeros while nothing is
delivered. -/
theorem receiverInvKept : Obligations.ReceiverInvKept := fun _ _ =>
  step_keeps (fun _ _ hs => hs) (fun _ _ _ _ => exec_receiverInv) (fun _ _ _ => execIllegal_receiverInv)

/-- The record has `S` bits, so no more than `S` of them are 1. -/
theorem delivered_length_le {s : State} (hs : ReceiverInv s) : s.delivered.length ≤ s.cfg.S := by
  obtain ⟨hs1, hs0⟩ := hs
  cases hn : s.b.init with
  | true =>
    obtain ⟨-, hlen, hcount⟩ := hs1 hn
    calc s.delivered.length = s.b.dlv.count true := hcount
      _ ≤ s.b.dlv.length := List.count_le_length
      _ = s.cfg.S := hlen
  | false => simp [hs0 hn]

/-- Settles O38: reachable states meet the receiver's invariant. -/
theorem atMostSPayloadsDelivered : Obligations.AtMostSPayloadsDelivered := fun _ _ h =>
  reachable_cfg h ▸ delivered_length_le (reachable_inv h).receiver

end Sys2Proof.Machine
end

section
/-! PROOFS, family 60_exceptions: what a step runs, the fault record, and events that are faulted, come before INIT or
cannot be presented. -/

namespace Sys2Proof.Machine

/-! ### The event that a step runs (60_exceptions.md R165, R178) -/

section decoding
variable {c : Config} {s : State} {tr : Transaction} {rest : List Transaction} {o : Op}

theorem decode_of_unmapped (h : opOfWord tr.ev = none) : decode c tr = .error (.illegalEvent tr.ev) := by
  rw [decode, h]

theorem decode_of_operand_length_ne (h : opOfWord tr.ev = some o) (hlen : tr.operand.length ≠ o.format.operandBytes c) :
    decode c tr = .error (.operandShape tr.ev) := by
  rw [decode, h]
  exact if_neg hlen

theorem step_of_operandShape {ev : EventWord} (h : s.inbox = tr :: rest)
    (hd : decode s.cfg tr = .error (.operandShape ev)) : step s = .refused (.operandNotPresentable ev) := by
  simp [step, fetch, h, hd, refuseOperand]

end decoding

/-- Settles O5: the three ends of decoding that run the event, run none, or refuse the operand. -/
theorem stepRunsTheDecodedEvent : Obligations.StepRunsTheDecodedEvent :=
  ⟨fun _ _ _ _ => step_of_decoded, fun _ => step_of_inbox_nil,
    fun _ _ _ _ h ho hlen => step_of_operandShape h (decode_of_operand_length_ne ho hlen)⟩

/-! ### The faulted block (60_exceptions.md R164) -/

section faulted
variable {i : Instr} {s t : State} {ev : EventWord} (hf : s.fault.reg ≠ 0#8)
include hf

theorem exec_of_faulted (hi : i ≠ .aTimeout) : exec i s = .next (s.publish (Response.of .faulted)) := by
  cases i with
  | aTimeout => exact absurd rfl hi
  | _ => exact unlessFaulted_of_faulted hf _

theorem exec_aTimeout_of_faulted (he : s.expiryAllowed) :
    exec .aTimeout s = .next (s.disarm.publish (Response.of .faulted)) := by
  rw [exec, execATimeout, presentExpiry_of_allowed he]
  exact unlessFaulted_of_faulted (s := s.disarm) hf _

theorem execIllegal_of_faulted : execIllegal ev s = .next (s.publish (Response.of .faulted)) :=
  unlessFaulted_of_faulted hf _

/-- On a faulted block an event writes the response, and an expiry disarms the timer. -/
theorem exec_cases_of_faulted (h : exec i s = .next t) :
    t = s.publish (Response.of .faulted) ∨ t = s.disarm.publish (Response.of .faulted) := by
  cases exec_cases h with
  | quiet => exact .inl rfl
  | quietExpiry => exact .inr rfl
  | _ => contradiction

/-- On a faulted block a step takes one event, if any is presented, and changes nothing but the response and `T.armed`,
which it does not set. -/
theorem step_eq_of_faulted (h : step s = .next t) : ∃ armed r, (armed = true → s.timer.armed = true) ∧
    t = { s with inbox := s.inbox.tail, timer := ⟨armed, s.timer.dur⟩, resp := r } := by
  rcases step_cases h with ⟨hin, rfl⟩ | ⟨tr, rest, i, hin, -, h⟩ | ⟨tr, rest, ev, hin, -, h⟩
  · exact ⟨t.timer.armed, t.resp, id, by rw [hin, List.tail_nil, ← hin]⟩
  · rcases exec_cases_of_faulted (s := { s with inbox := rest }) hf h with rfl | rfl
    · exact ⟨s.timer.armed, _, id, by rw [publish_of_out_nil rfl, hin]; rfl⟩
    · exact ⟨false, _, by simp, by rw [publish_of_out_nil rfl, hin]; rfl⟩
  · rw [execIllegal_of_faulted (s := { s with inbox := rest }) hf] at h
    injection h with h
    exact ⟨s.timer.armed, _, id, by rw [← h, publish_of_out_nil rfl, hin]; rfl⟩

end faulted

/-- Settles O7: a faulted block takes its event and writes the response and `T.armed` only. -/
theorem faultIsNeverCleared : Obligations.FaultIsNeverCleared := by
  intro s t hf h
  obtain ⟨armed, r, harmed, rfl⟩ := step_eq_of_faulted hf h
  exact ⟨rfl, rfl, rfl, rfl, rfl, harmed, rfl, rfl, rfl, rfl⟩

/-- Settles O8: an event or an illegal word leaves the record or writes one cause with its information. -/
theorem faultRecordInvKept : Obligations.FaultRecordInvKept := fun _ _ =>
  step_keeps (fun _ _ hs => hs) (fun _ _ _ _ => exec_faultInv) (fun _ _ _ => execIllegal_faultInv)

/-- Settles O6: check 1 of admission comes first in every event, after an expiry is presented. -/
theorem faultedBlockAnswersFaulted : Obligations.FaultedBlockAnswersFaulted := by
  refine fun s hf => ⟨fun i hi => ?_, fun he => ?_, fun tr rest hin ho => ?_⟩
  · rw [exec_of_faulted hf hi, publish_of_out_nil rfl]
    rfl
  · rw [exec_aTimeout_of_faulted hf he, publish_of_out_nil rfl]
    rfl
  · rw [step_of_illegal hin (decode_of_unmapped ho), execIllegal_of_faulted (s := { s with inbox := rest }) hf,
      publish_of_out_nil rfl]
    rfl

/-! ### Events before INIT, and expiries that may not be presented (60_exceptions.md R163, R172) -/

theorem raiseFault_of_noFault {s : State} (hf : s.fault.reg = 0#8) (cause : FaultCause) (ev : EventWord) (v : Bits32) :
    raiseFault cause ev v s = .next { s with
      fault := ⟨cause.mask, some ⟨ev, v⟩⟩, resp := some ⟨.faulted, false, 0#32, false, []⟩ } := by
  rw [raiseFault, record_of_none hf, finish, publish_of_out_nil rfl]
  rfl

/-- Settles O9: check 5 of admission comes before the event's own rule. -/
theorem eventBeforeInitRaisesNotInit : Obligations.EventBeforeInitRaisesNotInit := by
  refine fun s hf => ⟨fun hn => ⟨fun pay => ?_, fun p => ?_, fun he => ?_⟩, fun hn p => ?_⟩
  · exact (admitSender_of_notInit hf hn _).trans (raiseFault_of_noFault hf ..)
  · exact (admitSender_of_notInit hf hn _).trans (raiseFault_of_noFault hf ..)
  · rw [exec, execATimeout, presentExpiry_of_allowed he]
    exact (admitSender_of_notInit (s := s.disarm) hf hn _).trans (raiseFault_of_noFault (s := s.disarm) hf ..)
  · exact (admitReceiver_of_notInit hf hn _).trans (raiseFault_of_noFault hf ..)

/-- Settles O24: neither of the two conditions of R172 for presenting an expiry holds. -/
theorem unallowedExpiryIsRefused : Obligations.UnallowedExpiryIsRefused := by
  intro s harmed hsp
  rw [exec, execATimeout, presentExpiry_of_not_allowed (by simp [harmed, hsp])]

end Sys2Proof.Machine
end

section
/-! PROOFS, family 60_exceptions: no step from an invariant state stops, the channel premise CH_DETECTED, and drained
runs. -/

namespace Sys2Proof.Machine

/-! ### Steps that answer a next state (60_exceptions.md R160) -/

/-- The answer is a next state: neither a fault of the step nor a refusal. -/
def Answers (x : Answer) : Prop := ∃ t, x = .next t

section answers
variable {s : State} {rule : Answer} {o : Op}

theorem answers_finish (r : Response) : Answers (finish s r) := ⟨_, rfl⟩

theorem answers_ite {p : Prop} [Decidable p] {x y : Answer} (hx : Answers x) (hy : Answers y) :
    Answers (if p then x else y) := by
  split
  · exact hx
  · exact hy

theorem answers_unlessFaulted (h : Answers rule) : Answers (unlessFaulted s rule) := answers_ite (answers_finish _) h

theorem answers_admitSender (ha : s.a.init = true → s.a.windowAddressable s.cfg) (h : Answers rule) :
    Answers (admitSender o s rule) := by
  refine answers_unlessFaulted ?_
  split
  next => exact answers_finish _
  next hn => rwa [if_pos (ha (by simpa using hn))]

theorem answers_admitReceiver (hb : s.b.init = true → s.b.recordAddressable s.cfg) (h : Answers rule) :
    Answers (admitReceiver o s rule) := by
  refine answers_unlessFaulted ?_
  split
  next => exact answers_finish _
  next hn => rwa [if_pos (hb (by simpa using hn))]

/-- With arrays of the spec's sizes, every event but an expiry that may not be presented answers a next state. -/
theorem answers_exec (ha : s.a.init = true → s.a.windowAddressable s.cfg)
    (hb : s.b.init = true → s.b.recordAddressable s.cfg) (i : Instr) (he : i = .aTimeout → s.expiryAllowed) :
    Answers (exec i s) := by
  cases i with
  | aInit | bInit =>
    exact answers_unlessFaulted (answers_ite (answers_finish _) (answers_ite (answers_finish _) (answers_finish _)))
  | aSend | aRx => exact answers_admitSender ha (answers_finish _)
  | aTimeout =>
    rw [exec, execATimeout, presentExpiry_of_allowed (he rfl)]
    exact answers_admitSender ha (answers_finish _)
  | ckCompute | ckVerify => exact answers_unlessFaulted (answers_finish _)
  | bRx =>
    exact answers_admitReceiver hb
      (answers_ite (answers_finish _) (answers_ite (answers_finish _) (answers_finish _)))

theorem answers_execIllegal (ev : EventWord) : Answers (execIllegal ev s) := answers_unlessFaulted (answers_finish _)

theorem windowAddressable_of_senderInv (hs : SenderInv s) (hn : s.a.init = true) : s.a.windowAddressable s.cfg := by
  obtain ⟨-, hw, -⟩ := hs hn
  exact hw.addressable

theorem recordAddressable_of_receiverInv (hs : ReceiverInv s) (hn : s.b.init = true) : s.b.recordAddressable s.cfg := by
  obtain ⟨-, hlen, -⟩ := hs.1 hn
  exact hlen

end answers

/-- Settles O54: the invariants give the arrays their sizes, and the premise excludes the two refusals. -/
theorem invariantStatesNeverStop : Obligations.InvariantStatesNeverStop := by
  intro s hs hr hin
  rcases hbox : s.inbox with _ | ⟨tr, rest⟩
  · exact ⟨s, step_of_inbox_nil hbox⟩
  · obtain ⟨hshape, hexpiry⟩ := hin tr rest hbox
    rcases hd : decode s.cfg tr with (ev | ev) | i
    · rw [step_of_illegal hbox hd]
      exact answers_execIllegal ev
    · exact absurd hd (hshape ev)
    · rw [step_of_decoded hbox hd]
      exact answers_exec (s := { s with inbox := rest }) (windowAddressable_of_senderInv hs)
        (recordAddressable_of_receiverInv hr) i fun hi => hexpiry (hi ▸ hd)

/-! ### The channel premise CH_DETECTED (60_exceptions.md R173) -/

/-- An uncorrupted packet that the channel presents to B is one that A sent. -/
theorem mem_chanAB_of_chDetected {s : State} {p : Packet} (h : chDetected s (.bRx p)) (hc : isCorrupted s.cfg p = false) :
    p ∈ s.chanAB := h.resolve_right (by simp [hc])

/-- Settles O55: an uncorrupted packet is one that A built, so its number is in the sequence space. -/
theorem detectedChannelNeverFaultsReceiver : Obligations.DetectedChannelNeverFaultsReceiver := by
  intro s p h hch hd
  cases hc : isCorrupted s.cfg p with
  | true => exact ⟨_, exec_bRx_of_corrupted h hc, rfl⟩
  | false =>
    have hdata : IsDataPacket s.cfg p := hch.1 p (mem_chanAB_of_chDetected hd hc)
    exact ⟨_, exec_bRx_of_accepted h hc hdata.seqnum, rfl⟩

section delivered
variable {i : Instr} {s t : State}

/-- An event that delivers only payloads of packets in the channel keeps that they were sent: the channel only grows. -/
theorem deliveredWasSent_publish {r : Response} (h : DeliveredWasSent s)
    (hd : ∀ d ∈ deliveredBy r.out, ∃ p ∈ s.chanAB, p.payload = d) : DeliveredWasSent (s.publish r) := by
  intro d hmem
  obtain ⟨p, hp, rfl⟩ := (List.mem_append.mp hmem).elim (h d) (hd d)
  exact ⟨p, List.mem_append_left _ hp, rfl⟩

theorem acceptData_delivered {c : Config} {p : Packet} (b : Receiver) :
    ∀ d ∈ deliveredBy (acceptData c p b).2.out, d = p.payload := by
  rcases acceptData_cases c p b with ⟨-, h⟩ | ⟨-, h⟩ <;> simp [h]

theorem exec_deliveredWasSent (hch : chDetected s i) (hs : DeliveredWasSent s) (h : exec i s = .next t) :
    DeliveredWasSent t := by
  have hnone {r : Response} (hr : OutputsOf .a r.out) : ∀ d ∈ deliveredBy r.out, ∃ p ∈ s.chanAB, p.payload = d := by
    simp [deliveredBy_of_outputsOf_a hr]
  cases exec_cases h with
  | bRx _ p hi _ _ hc =>
    have hsent : p ∈ s.chanAB := mem_chanAB_of_chDetected (hi ▸ hch) hc
    exact deliveredWasSent_publish hs fun d hd => ⟨p, hsent, (acceptData_delivered s.b d hd).symm⟩
  | aSend => exact deliveredWasSent_publish hs (hnone sendRule_outputsOf)
  | aRx => exact deliveredWasSent_publish hs (hnone ackRule_outputsOf)
  | aTimeout => exact deliveredWasSent_publish (s := s.disarm) hs (hnone timeoutRule_outputsOf)
  | _ => exact deliveredWasSent_publish hs (by simp)

end delivered

/-- Settles O56: only B.RX of an uncorrupted packet delivers, and what it delivers is that packet's payload. -/
theorem deliveredPayloadsWereSent : Obligations.DeliveredPayloadsWereSent := by
  intro s t hch hs h
  rcases step_cases h with ⟨-, rfl⟩ | ⟨tr, rest, i, hin, hd, h⟩ | ⟨tr, rest, ev, -, -, h⟩
  · exact hs
  · have hnext : chDetected { s with inbox := rest } i := by
      have hcase := hch tr rest i hin hd
      cases i <;> exact hcase
    exact exec_deliveredWasSent (s := { s with inbox := rest }) hnext hs h
  · obtain ⟨f, r, -, rfl⟩ := execIllegal_eq h
    exact hs

/-! ### Drained runs (60_exceptions.md R179) -/

/-- Every slot of the buffer is at a position of the window. -/
theorem exists_position {c : Config} {a : Sender} (hfirst : a.first < c.W) {i : Nat} (hi : i < c.W) :
    ∃ j < c.W, a.indexOf c j = i := by
  rcases Nat.lt_or_ge i a.first with hlt | hge
  · refine ⟨i + c.W - a.first, by omega, ?_⟩
    rw [Sender.indexOf, show a.first + (i + c.W - a.first) = i + c.W by omega, Nat.add_mod_right, Nat.mod_eq_of_lt hi]
  · refine ⟨i - a.first, by omega, ?_⟩
    rw [Sender.indexOf, Nat.add_sub_cancel' hge, Nat.mod_eq_of_lt hi]

/-- In an empty window every slot is EMPTY (41_sender.md R122). -/
theorem tag_empty_of_count_eq_zero {c : Config} {a : Sender} (hw : WindowInv c a) (h0 : a.count = 0) {i : Nat}
    (hi : i < c.W) : (a.slotAt i).tag = .empty := by
  obtain ⟨-, -, hfirst, -⟩ := hw.addressable
  obtain ⟨j, hj, rfl⟩ := exists_position hfirst hi
  exact hw.free j hj (by omega)

/-- Settles O59: with an empty window the timer is not armed (R128). -/
theorem successfulRunIsDrainedIffWindowIsEmpty : Obligations.SuccessfulRunIsDrainedIffWindowIsEmpty := by
  intro c s hr hok
  have hinv := reachable_inv hr
  have ⟨hf, hn, _⟩ := hok
  refine ⟨⟨fun ⟨_, h0, _⟩ => h0, fun h0 => ⟨hok, h0, ?_⟩⟩, fun ⟨_, h0, _⟩ i hi => ?_⟩
  · rw [← Bool.not_eq_true, hinv.timer hf]
    omega
  · obtain ⟨-, hw, -⟩ := hinv.sender hn
    rw [reachable_cfg hr] at hw
    exact tag_empty_of_count_eq_zero hw h0 hi

end Sys2Proof.Machine
end

section
/-! PROOFS, family 60_exceptions: in a fair run without faults the oldest packet is acknowledged (R175). -/

namespace Sys2Proof.Machine

/-! ### The oldest packet while the window does not slide -/

/-- Both endpoints are initialised, and the oldest packet in flight is `p`. -/
structure AwaitsAck (p : Packet) (s : State) : Prop where
  a_init : s.a.init = true
  b_init : s.b.init = true
  inflight : 0 < s.a.count
  oldest : (s.a.slotAt s.a.first).pkt = p

section oldest
variable {c : Config} {a : Sender}

theorem sendRule_keeps_oldest (hw : WindowInv c a) (hp : 0 < a.count) (pay : List Byte) :
    0 < (sendRule c pay a).1.count ∧
      ((sendRule c pay a).1.slotAt (sendRule c pay a).1.first).pkt = (a.slotAt a.first).pkt := by
  have hfirst := hw.addressable.2.2.1
  rcases sendRule_cases c pay a with ⟨hroom, h⟩ | ⟨-, h⟩ <;> rw [h]
  · refine ⟨Nat.succ_pos a.count, ?_⟩
    rw [← slotPos_zero (c := c) (a := (acceptSend c pay a).1) hfirst, acceptSend_slotPos hw hroom pay (by omega),
      if_neg hp.ne, slotPos_zero hfirst]
  · exact ⟨hp, rfl⟩

/-- Only a slide moves the window past its oldest slot. -/
theorem ackRule_keeps_oldest (hp : 0 < a.count) (q : Packet) : (ackRule c q a).2.res = .ackSlide ∨
    0 < (ackRule c q a).1.count ∧ ((ackRule c q a).1.slotAt (ackRule c q a).1.first).pkt = (a.slotAt a.first).pkt := by
  rcases ackRule_cases c q a with ⟨-, h⟩ | ⟨-, -, h⟩ | ⟨-, -, -, -, h⟩ | ⟨-, -, -, -, -, h⟩ | ⟨-, -, -, -, -, h⟩ <;>
    rw [h]
  case inr.inr.inr.inr => exact .inl rfl
  case inr.inr.inr.inl => exact .inr ⟨hp, by simp⟩
  all_goals exact .inr ⟨hp, rfl⟩

/-- An event slides the window or leaves its oldest packet. -/
theorem exec_awaitsAck {i : Instr} {s t : State} {p : Packet} (hs : SenderInv s) (hp : AwaitsAck p s)
    (h : exec i s = .next t) : (∃ r, t.resp = some r ∧ r.res = .ackSlide) ∨ AwaitsAck p t := by
  obtain ⟨ha, hb, hcount, hold⟩ := hp
  have hb' : t.b.init = true := (exec_b_init h).elim (fun e => e.trans hb) And.right
  cases exec_cases h with
  | aInit _ _ hn => simp [ha] at hn
  | aSend _ pay =>
    obtain ⟨-, hw, -⟩ := hs ha
    obtain ⟨hcount', hold'⟩ := sendRule_keeps_oldest hw hcount pay
    exact .inr ⟨(sendRule_init ..).trans ha, hb', hcount', hold'.trans hold⟩
  | aRx _ q =>
    refine (ackRule_keeps_oldest (c := s.cfg) hcount q).imp (fun hres => ⟨_, rfl, hres⟩) fun ⟨hcount', hold'⟩ => ?_
    exact ⟨(ackRule_init ..).trans ha, hb', hcount', hold'.trans hold⟩
  | _ => exact .inr ⟨ha, hb', hcount, hold⟩

end oldest

/-! ### The events of a run -/

section run
variable {c : Config} {st : Nat → State} {ev : Nat → Transaction} (h0 : Reachable c (st 0)) (hrun : IsRun st ev)

include hrun

/-- An event of a run that does not fault there is an instruction's. -/
theorem run_exec {m : Nat} (hf : (st (m + 1)).fault.reg = 0#8) :
    ∃ i, exec i { st m with inbox := [] } = .next (st (m + 1)) := by
  rcases step_cases (hrun m) with ⟨hin, -⟩ | ⟨tr, rest, i, hin, -, h⟩ | ⟨tr, rest, w, -, -, h⟩
  · cases hin
  · obtain ⟨-, rfl⟩ := List.cons.inj hin
    exact ⟨i, h⟩
  · obtain ⟨f, r, hf', he⟩ := execIllegal_eq h
    rw [he] at hf
    exact absurd hf hf'

/-- A well-formed event of a run runs. -/
theorem run_presented {m : Nat} {i : Instr} (he : ev m = encode i) (hi : i.wellFormed (st m).cfg = true) :
    exec i { st m with inbox := [] } = .next (st (m + 1)) := by
  rw [← step_presented (st m) hi, ← he]
  exact hrun m

include h0

/-- While the window does not slide, its oldest packet stays. -/
theorem run_awaitsAck {n : Nat} {p : Packet} (hf : ∀ m, (st m).fault.reg = 0#8) (hp : AwaitsAck p (st n))
    (hno : ∀ m ≥ n, ¬ ∃ r, (st (m + 1)).resp = some r ∧ r.res = .ackSlide) : ∀ m ≥ n, AwaitsAck p (st m) := by
  intro m hm
  induction m, hm using Nat.le_induction with
  | base => exact hp
  | succ m hm ih =>
    obtain ⟨i, h⟩ := run_exec hrun (hf (m + 1))
    have hs : SenderInv { st m with inbox := [] } := (reachable_inv (reachable_run h0 hrun m)).sender
    exact (exec_awaitsAck hs ⟨ih.a_init, ih.b_init, ih.inflight, ih.oldest⟩ h).resolve_left (hno m hm)

theorem run_isDataPacket {m : Nat} {p : Packet} (hp : AwaitsAck p (st m)) : IsDataPacket c p := by
  have hr := reachable_run h0 hrun m
  obtain ⟨hv, hw, hq⟩ := (reachable_inv hr).sender hp.a_init
  rw [reachable_cfg hr] at hv hw hq
  exact hp.oldest ▸ isDataPacket_oldest hv hw hq hp.inflight

/-- B acknowledges a packet of A whenever it is presented, with the alternating counter's value of that moment
(42_receiver.md R141, R142). -/
theorem run_receive {m : Nat} {p : Packet} (hf : (st m).fault.reg = 0#8) (hb : (st m).b.init = true)
    (hp : IsDataPacket c p) (he : ev m = encode (.bRx p)) :
    ∃ r, (st (m + 1)).resp = some r ∧ .tx .b (ackFor c (st m).b p.seqnum) ∈ r.out := by
  have hr := reachable_run h0 hrun m
  rw [← reachable_cfg hr] at hp ⊢
  have hready : ReceiverReady { st m with inbox := [] } :=
    ⟨hf, hb, recordAddressable_of_receiverInv (reachable_inv hr).receiver hb⟩
  have hstep := run_presented hrun he (packet_wellFormed_iff.mpr hp.payload)
  rw [exec_bRx_of_accepted hready hp.valid hp.seqnum] at hstep
  injection hstep with hnext
  refine ⟨_, by rw [← hnext, publish_resp], ?_⟩
  rcases acceptData_cases (st m).cfg p (st m).b with ⟨-, h⟩ | ⟨-, h⟩ <;> simp [h]

/-- lastACK never has the number of the oldest packet (41_sender.md R126). -/
theorem run_not_repeatsLastAck {m : Nat} (hc : c.LASTACK_RESET = none) (ha : (st m).a.init = true)
    (hp : 0 < (st m).a.count) : ¬ (st m).a.repeatsLastAck (st m).a.lo := by
  rintro ⟨hheld, heq⟩
  have hr := reachable_run h0 hrun m
  obtain ⟨-, hw, -⟩ := (reachable_inv hr).sender ha
  rw [reachable_cfg hr] at hw
  have hne := lastAckIsNeverInFlight c (st m) hc hr ha hheld 0 hp (hw.oldest hp)
  rw [← lo_eq_slotPos hw.addressable.2.2.1] at hne
  exact hne heq

/-- An acknowledgment of the oldest packet slides the window. -/
theorem run_acknowledge {m : Nat} {p q : Packet} (hc : c.LASTACK_RESET = none) (hf : (st m).fault.reg = 0#8)
    (hp : AwaitsAck p (st m)) (hq : IsAckPacket c q) (hk : q.acknum = p.seqnum) (he : ev m = encode (.aRx q)) :
    ∃ r, (st (m + 1)).resp = some r ∧ r.res = .ackSlide := by
  obtain ⟨ha, -, hcount, rfl⟩ := hp
  have hr := reachable_run h0 hrun m
  obtain ⟨hv, hw, hseq⟩ := (reachable_inv hr).sender ha
  have hlo : sint q.acknum = (st m).a.lo := by rw [hk, Sender.lo]
  have hnew : ¬ (st m).a.repeatsLastAck (sint q.acknum) := hlo ▸ run_not_repeatsLastAck h0 hrun hc ha hcount
  have hrange : inRange (st m).cfg (st m).a (sint q.acknum) = true := hlo ▸ inRange_lo hv hw hseq hcount
  have hlen : q.payload.length = c.L := by rw [hq.payload, fill_length]
  have hvalid := hq.valid
  rw [← reachable_cfg hr] at hlen hvalid
  have hready : SenderReady { st m with inbox := [] } := ⟨hf, ha, hw.addressable⟩
  have hstep := run_presented hrun he (packet_wellFormed_iff.mpr hlen)
  rw [exec_aRx_of_ready hready, ackRule_of_accepted hvalid hcount hnew hrange, acceptAckRule_of_oldest hlo] at hstep
  injection hstep with hnext
  exact ⟨_, by rw [← hnext, publish_resp], rfl⟩

end run

/-! ### Fairness (60_exceptions.md R175) -/

/-- What happens infinitely often with some bit happens infinitely often with one of the two. -/
theorem exists_bit_infinitely_often {P : Nat → BitVec 1 → Prop} {f : Nat → BitVec 1}
    (h : ∀ n, ∃ m ≥ n, P m (f m)) : ∃ v, ∀ n, ∃ m ≥ n, P m v := by
  have hbit : ∀ v : BitVec 1, v = 0#1 ∨ v = 1#1 := by decide
  simp only [← Filter.frequently_atTop] at h ⊢
  have hor := h.mono fun m hm => (hbit (f m)).imp (fun e => e ▸ hm) (fun e => e ▸ hm)
  exact (Filter.frequently_or_distrib.mp hor).elim (fun h => ⟨0#1, h⟩) (fun h => ⟨1#1, h⟩)

/-- Of infinitely many acknowledgments of one number infinitely many are the same packet: they differ in the bit that B
stamps on them (42_receiver.md R142). -/
theorem exists_ack_infinitely_often {c : Config} {q : Bits32} {b : Nat → Receiver} {Sent : Nat → Packet → Prop}
    (hq : inSeqSpace c (sint q)) (h : ∀ n, ∃ m ≥ n, Sent m (ackFor c (b m) q)) :
    ∃ k, IsAckPacket c k ∧ k.acknum = q ∧ ∀ n, ∃ m ≥ n, Sent m k := by
  obtain ⟨v, hv⟩ := exists_bit_infinitely_often (P := fun m v => Sent m (ackFor c ⟨true, [], v⟩ q))
    (f := fun m => (b m).nseq) h
  exact ⟨_, isAckPacket_ackFor hq ⟨true, [], v⟩, rfl, hv⟩

/-- Settles O58: while the window does not slide, its oldest packet is sent again and again (R130), so it reaches B again
and again, and so does one of its two acknowledgments reach A, which slides the window. -/
theorem oldestIsEventuallyAcknowledged : Obligations.OldestIsEventuallyAcknowledged := by
  intro c st ev n hc h0 hrun hexpiry hchan hf ha hb hcount
  by_contra hcon
  have hno (m : Nat) (hm : m ≥ n) : ¬ ∃ r, (st (m + 1)).resp = some r ∧ r.res = .ackSlide :=
    fun hslide => hcon ⟨m, hm, hslide⟩
  generalize hp : ((st n).a.slotAt (st n).a.first).pkt = p
  have hwait := run_awaitsAck h0 hrun hf ⟨ha, hb, hcount, hp⟩ hno
  have hdata := run_isDataPacket h0 hrun (hwait n le_rfl)
  have hsent (k : Nat) : ∃ m ≥ k, ∃ r, (st (m + 1)).resp = some r ∧ .tx .a p ∈ r.out := by
    obtain ⟨m, hm, r, hr, -, htx⟩ := retransmissionIsUnbounded c st ev n h0 hrun hexpiry hf
      (fun m hm => ⟨(hwait m hm).a_init, (hwait m hm).inflight⟩) (max k n)
    rw [(hwait m (by omega)).oldest] at htx
    exact ⟨m, by omega, r, hr, htx⟩
  have hanswered (k : Nat) : ∃ m ≥ k, ∃ r, (st (m + 1)).resp = some r ∧
      .tx .b (ackFor c (st m).b p.seqnum) ∈ r.out := by
    obtain ⟨m, hm, he⟩ := (hchan p).1 hsent (max k n)
    exact ⟨m, by omega, run_receive h0 hrun (hf m) (hwait m (by omega)).b_init hdata he⟩
  obtain ⟨q, hq, hk, hq'⟩ := exists_ack_infinitely_often (b := fun m => (st m).b)
    (Sent := fun m q => ∃ r, (st (m + 1)).resp = some r ∧ .tx .b q ∈ r.out) hdata.seqnum hanswered
  obtain ⟨m, hm, he⟩ := (hchan q).2 hq' n
  exact hno m hm (run_acknowledge h0 hrun hc (hf m) (hwait m hm) hq hk he)

end Sys2Proof.Machine
end

section
/-! PROOFS, family 70_reset_and_hazards: the configuration check, the two INIT events, and the first state of a run. -/

namespace Sys2Proof.Machine

/-! ### The configuration check (70_reset_and_hazards.md R191) -/

/-- With `k` clauses met and the next one violated, the check answers the violated clause's number. -/
theorem firstViolatedClause_of_first {c : Config} (k : Nat) (hk : (configClauses c)[k]? = some false)
    (hmet : ∀ b ∈ (configClauses c).take k, b = true) : firstViolatedClause c = k + 1 := by
  have hlt (j : Nat) (hj : j < k) : (configClauses c)[j]? = some true := by
    have hlen : j < (configClauses c).length := hj.trans (List.getElem?_eq_some_iff.mp hk).1
    rw [List.getElem?_eq_getElem hlen, hmet _ (List.mem_take_iff_getElem.mpr ⟨j, lt_min hj hlen, rfl⟩)]
  rw [firstViolatedClause, firstFalse_spec 1 _ k hk hlt, Nat.add_comm]

/-- Settles O11: each clause fails at its own place in R191's order, behind clauses that hold. -/
theorem firstViolatedClauseIsFirst : Obligations.FirstViolatedClauseIsFirst := by
  refine fun c => ⟨firstViolatedClause_eq_zero c, fun h => ?_, fun hW h => ?_, fun hW hratio h => ?_,
    fun hW hratio hS h => ?_, fun hW hratio hS hn => ⟨fun h => ?_, fun hb => ⟨fun h => ?_, fun hl => ⟨fun h => ?_,
    fun hL h => ?_⟩⟩⟩⟩
  · exact firstViolatedClause_of_first 0 (by simp [configClauses, h]) (by simp)
  · exact firstViolatedClause_of_first 1 (by simp [configClauses, h]) (by simp [configClauses, hW])
  · exact firstViolatedClause_of_first 2 (by simpa [configClauses] using h) (by simp [configClauses, hW, hratio])
  · exact firstViolatedClause_of_first 3 (by simp [configClauses, h]) (by simpa [configClauses, hW, hratio] using hS)
  · exact firstViolatedClause_of_first 4 (by simp [configClauses, h]) (by simpa [configClauses, hW, hratio, hn] using hS)
  · have hl : lastackResetLegal c = false := by
      obtain ⟨k, hk, hout⟩ := h
      exact Bool.eq_false_iff.mpr fun ht => hout ((lastackResetLegal_eq_true c).mp ht k hk)
    exact firstViolatedClause_of_first 5 (by simp [configClauses, hl])
      (by simpa [configClauses, hW, hratio, hn, hb] using hS)
  · rw [← lastackResetLegal_eq_true] at hl
    exact firstViolatedClause_of_first 6 (by simp [configClauses, h])
      (by simpa [configClauses, hW, hratio, hn, hb, hl] using hS)
  · rw [← lastackResetLegal_eq_true] at hl
    exact firstViolatedClause_of_first 7 (by simpa [configClauses] using h)
      (by simpa [configClauses, hW, hratio, hn, hb, hl, hL] using hS)

/-! ### The checks before an INIT event's rule (70_reset_and_hazards.md R190, R192, R195) -/

/-- The checks that A.INIT and B.INIT share, with the endpoint's initialisation flag and the event word. -/
def admitInit (init : Bool) (w : EventWord) (s : State) (rule : Answer) : Answer :=
  unlessFaulted s (
    if init = true then raiseFault .reinit w 0#32 s
    else if firstViolatedClause s.cfg ≠ 0 then raiseFault .config w (BitVec.ofNat 32 (firstViolatedClause s.cfg)) s
    else rule)

theorem exec_aInit (s : State) : exec .aInit s =
    admitInit s.a.init Op.aInit.word s (finishSender s (initSender s.cfg s.a, Response.of .initDone)) := rfl

theorem exec_bInit (s : State) : exec .bInit s =
    admitInit s.b.init Op.bInit.word s (finishReceiver s (initReceiver s.cfg, Response.of .initDone)) := rfl

section admitInit
variable {init : Bool} {w : EventWord} {s : State} {rule : Answer} (hf : s.fault.reg = 0#8)
include hf

theorem admitInit_of_init (hi : init = true) : admitInit init w s rule = .next { s with
    fault := ⟨0x04#8, some ⟨w, 0#32⟩⟩, resp := some ⟨.faulted, false, 0#32, false, []⟩ } := by
  rw [admitInit, unlessFaulted_of_noFault hf, if_pos hi, raiseFault_of_noFault hf, mask_reinit]

theorem admitInit_of_violated (hi : init = false) (hc : firstViolatedClause s.cfg ≠ 0) :
    admitInit init w s rule = .next { s with
      fault := ⟨0x08#8, some ⟨w, BitVec.ofNat 32 (firstViolatedClause s.cfg)⟩⟩
      resp := some ⟨.faulted, false, 0#32, false, []⟩ } := by
  rw [admitInit, unlessFaulted_of_noFault hf, if_neg (by simp [hi]), if_pos hc, raiseFault_of_noFault hf, mask_config]

theorem admitInit_of_valid (hi : init = false) (hv : ValidConfig s.cfg) : admitInit init w s rule = rule := by
  have hc := (firstViolatedClause_eq_zero s.cfg).mpr hv
  rw [admitInit, unlessFaulted_of_noFault hf, if_neg (by simp [hi]), if_neg (by simp [hc])]

end admitInit

/-- Settles O10: the flag is tested before the configuration. -/
theorem secondInitRaisesReinit : Obligations.SecondInitRaisesReinit := fun s hf =>
  ⟨fun hi => (exec_aInit s).trans (admitInit_of_init hf hi), fun hi => (exec_bInit s).trans (admitInit_of_init hf hi)⟩

/-! ### The values that INIT writes (70_reset_and_hazards.md R190, R192) -/

theorem tag_of_mem_emptiedBuf {c : Config} {a : Sender} {sl : Slot} (h : sl ∈ emptiedBuf c a) : sl.tag = .empty := by
  obtain ⟨i, -, rfl⟩ := List.mem_map.mp h
  rfl

/-- Settles O12: the two checks of A.INIT in order, and the registers of R190 behind them. -/
theorem senderInitSetsResetValues : Obligations.SenderInitSetsResetValues := by
  intro s hf
  refine ⟨(secondInitRaisesReinit s hf).1, fun hi hc => ?_, fun hi hv => ?_⟩
  · exact (exec_aInit s).trans (admitInit_of_violated hf hi hc)
  · refine ⟨emptiedBuf s.cfg s.a, by simp [emptiedBuf], fun _ => tag_of_mem_emptiedBuf, ?_⟩
    rw [exec_aInit, admitInit_of_valid hf hi hv, finishSender, finish, publish_of_out_nil rfl]
    rfl

/-- Settles O13: the two checks of B.INIT in order, and the registers of R192 behind them. -/
theorem receiverInitSetsResetValues : Obligations.ReceiverInitSetsResetValues := by
  intro s hf
  refine ⟨(secondInitRaisesReinit s hf).2, fun hi hc => ?_, fun hi hv => ?_⟩
  · exact (exec_bInit s).trans (admitInit_of_violated hf hi hc)
  · rw [exec_bInit, admitInit_of_valid hf hi hv, finishReceiver, finish, publish_of_out_nil rfl]
    rfl

/-! ### The first state of a run (70_reset_and_hazards.md R193) -/

/-- Settles O46: the power-on state, field by field, under every configuration. -/
theorem runsStartUninitialised : Obligations.RunsStartUninitialised :=
  ⟨rfl, fun c => ⟨powerOn_cfg c, sender_powerOn_init c, receiver_powerOn_init c, powerOn_fault c, powerOn_timer c⟩⟩

end Sys2Proof.Machine
end
